-- ==== Sys2Proof/Word.lean ====
section
/-! DEFINITION. The machine's words: bytes, command words, register and bus addresses, channels, the 4-byte channel block, the payload of SETBRS, and the fault causes. -/

namespace Sys2Proof

/-- An 8-bit value: a device register's contents, a brightness (00_scope.md R5). -/
abbrev Byte := BitVec 8

/-- A command word of the host's stream (30_encoding.md R80). -/
abbrev Word32 := BitVec 32

/-- A device register address, 0x00 to 0xFF (20_memory.md R50). -/
abbrev RegAddr := BitVec 8

/-- A 7-bit bus device address (20_memory.md R50, R56). -/
abbrev BusAddr := BitVec 7

/-- A channel number, 0 to 15 (00_scope.md R5). -/
abbrev Chan := BitVec 4

/-- A 4-byte on/off block, in increasing register-address order (10_state.md R31). -/
structure ChannelBlock where
  onL : Byte
  onH : Byte
  offL : Byte
  offH : Byte
  deriving DecidableEq, Repr

/-- The four payload words P0 to P3 of SETBRS (30_encoding.md R89). -/
structure Payload where
  p0 : Word32
  p1 : Word32
  p2 : Word32
  p3 : Word32
  deriving DecidableEq, Repr

/-- The fault causes of 60_exceptions.md R181. -/
inductive FaultCode where
  | illegalOpcode
  | truncated
  | reservedField
  | illegalOperand
  | notInitialized
  deriving DecidableEq, Repr

end Sys2Proof
end

