-- ==== Sys2Proof/Syntax.lean ====
section
/-! DEFINITION. The eleven commands of 30_encoding.md R92, one constructor per row of spec/opcode_table.json, operands as 30_encoding.md R91 and R95 give them. -/

namespace Sys2Proof

/-- A command of the block (30_encoding.md R92). -/
inductive Instr where
  /-- INIT drv, addr (R84). -/
  | init (drv : Byte) (addr : BusAddr)
  /-- SLEEP e: `true` is E = 1, enter sleep (R85). -/
  | sleep (e : Bool)
  /-- ALLON (R83). -/
  | allon
  /-- ALLOFF (R83). -/
  | alloff
  /-- SETBITS mask: bit i is channel i (R86). -/
  | setbits (mask : BitVec 16)
  /-- SETONMASK mask (R86). -/
  | setonmask (mask : BitVec 16)
  /-- SETOFFMASK mask (R86). -/
  | setoffmask (mask : BitVec 16)
  /-- SETBR br, ch (R87). -/
  | setbr (br : Byte) (ch : Chan)
  /-- SETBRALL br (R88). -/
  | setbrall (br : Byte)
  /-- SETBRS first, count, [b0, ..., b15] (R89); the sixteen bytes are the payload's. -/
  | setbrs (first : Chan) (count : BitVec 5) (payload : Payload)
  /-- SETRGB [v0, v1, v2], group (R90). -/
  | setrgb (v0 v1 v2 : Byte) (group : BitVec 3)
  deriving DecidableEq, Repr

end Sys2Proof
end

