-- ==== Sys2Proof/Decode.lean ====
section
/-! DEFINITION. Command decoding (30_encoding.md): from the host's words to a command or a fault cause, and the encoder beside it. Checks (1) to (3) of 60_exceptions.md R182 are made here, in that order; check (4), ILLEGAL_OPERAND, is made by the two commands that can raise it, and check (5) by every command but INIT. -/

namespace Sys2Proof

/-- OP, bits 3:0 of a header (30_encoding.md R80). -/
def opField (h : Word32) : BitVec 4 := h.extractLsb' 0 4

/-- The bits a header with this OP must have 0 (30_encoding.md R82 to R90). -/
def reservedBits (op : BitVec 4) : Word32 :=
  match op.toNat with
  | 0x1 => 0xFF8000F0#32
  | 0x2 => 0xFFFFFEF0#32
  | 0x3 => 0xFFFFFFF0#32
  | 0x4 => 0xFFFFFFF0#32
  | 0x5 => 0x0000FFF0#32
  | 0x6 => 0x0000FFF0#32
  | 0x7 => 0x0000FFF0#32
  | 0x8 => 0xFFFF0000#32
  | 0x9 => 0xFFFF00F0#32
  | 0xA => 0xFFFFE000#32
  | 0xB => 0x00000080#32
  | _ => 0#32

/-- A command's length in words, from OP alone (30_encoding.md R93). -/
def opWords (op : BitVec 4) : Nat := if op = 0xA#4 then 5 else 1

/-- The payload words P0 to P3 that follow a header; a missing word reads 0 here, and such a command is refused as TRUNCATED before its payload is used (30_encoding.md R89, R93). -/
def payloadOf (rest : List Word32) : Payload :=
  { p0 := rest.getD 0 0#32, p1 := rest.getD 1 0#32, p2 := rest.getD 2 0#32, p3 := rest.getD 3 0#32 }

/-- The command a header's fields name, by OP (30_encoding.md R84 to R92); none for the illegal opcodes 0x0 and 0xC to 0xF. -/
def fieldsOf (h : Word32) (rest : List Word32) : Option Instr :=
  match (opField h).toNat with
  | 0x1 => some (.init (h.extractLsb' 8 8) (h.extractLsb' 16 7))
  | 0x2 => some (.sleep (h.getLsbD 8))
  | 0x3 => some .allon
  | 0x4 => some .alloff
  | 0x5 => some (.setbits (h.extractLsb' 16 16))
  | 0x6 => some (.setonmask (h.extractLsb' 16 16))
  | 0x7 => some (.setoffmask (h.extractLsb' 16 16))
  | 0x8 => some (.setbr (h.extractLsb' 8 8) (h.extractLsb' 4 4))
  | 0x9 => some (.setbrall (h.extractLsb' 8 8))
  | 0xA => some (.setbrs (h.extractLsb' 4 4) (h.extractLsb' 8 5) (payloadOf rest))
  | 0xB => some (.setrgb (h.extractLsb' 8 8) (h.extractLsb' 16 8) (h.extractLsb' 24 8) (h.extractLsb' 4 3))
  | _ => none

/-- Decode the command at the head of the host's words, in the order of 60_exceptions.md R182: ILLEGAL_OPCODE, then TRUNCATED, then RESERVED_FIELD. No words at all is TRUNCATED too; the block never decodes then (it waits for the host). -/
def decode (ws : List Word32) : Except FaultCode Instr :=
  match ws with
  | [] => .error .truncated
  | h :: rest =>
    match fieldsOf h rest with
    | none => .error .illegalOpcode
    | some i =>
      if rest.length + 1 < opWords (opField h) then .error .truncated
      else if h &&& reservedBits (opField h) ≠ 0#32 then .error .reservedField
      else .ok i

/-- A command's length in words (30_encoding.md R92, R93). -/
def instrWords (i : Instr) : Nat :=
  match i with
  | .setbrs _ _ _ => 5
  | .init _ _ => 1
  | .sleep _ => 1
  | .allon => 1
  | .alloff => 1
  | .setbits _ => 1
  | .setonmask _ => 1
  | .setoffmask _ => 1
  | .setbr _ _ => 1
  | .setbrall _ => 1
  | .setrgb _ _ _ _ => 1

/-- A command's header, fields from bit 31 down to bit 0 (30_encoding.md R83 to R90, R92). -/
def encodeHeader (i : Instr) : Word32 :=
  match i with
  | .init drv addr => 0#9 ++ addr ++ drv ++ 0#4 ++ 0x1#4
  | .sleep e => 0#23 ++ BitVec.ofBool e ++ 0#4 ++ 0x2#4
  | .allon => 0#28 ++ 0x3#4
  | .alloff => 0#28 ++ 0x4#4
  | .setbits mask => mask ++ 0#12 ++ 0x5#4
  | .setonmask mask => mask ++ 0#12 ++ 0x6#4
  | .setoffmask mask => mask ++ 0#12 ++ 0x7#4
  | .setbr br ch => 0#16 ++ br ++ ch ++ 0x8#4
  | .setbrall br => 0#16 ++ br ++ 0#4 ++ 0x9#4
  | .setbrs first count _ => 0#19 ++ count ++ first ++ 0xA#4
  | .setrgb v0 v1 v2 group => v2 ++ v1 ++ v0 ++ 0#1 ++ group ++ 0xB#4

/-- The words that follow a header: four for SETBRS, none otherwise (30_encoding.md R80, R89). -/
def encodePayload (i : Instr) : List Word32 :=
  match i with
  | .setbrs _ _ p => [p.p0, p.p1, p.p2, p.p3]
  | .init _ _ => []
  | .sleep _ => []
  | .allon => []
  | .alloff => []
  | .setbits _ => []
  | .setonmask _ => []
  | .setoffmask _ => []
  | .setbr _ _ => []
  | .setbrall _ => []
  | .setrgb _ _ _ _ => []

/-- The words of a command (30_encoding.md R80). -/
def encode (i : Instr) : List Word32 := encodeHeader i :: encodePayload i

/-- A word from the four bytes a host interface delivers, first delivered byte lowest (30_encoding.md R81). -/
def wordOfBytes (b0 b1 b2 b3 : Byte) : Word32 := b3 ++ b2 ++ b1 ++ b0

/-- Byte k of a word, bits 8k+7:8k (30_encoding.md R81). -/
def byteOfWord (w : Word32) (k : Nat) : Byte := w.extractLsb' (8 * k) 8

/-- The words a byte stream delivers, four bytes a word; a last incomplete word is not delivered (30_encoding.md R80 "whole 32-bit units", R81). -/
def wordsOfBytes (bs : List Byte) : List Word32 :=
  match bs with
  | b0 :: b1 :: b2 :: b3 :: rest => wordOfBytes b0 b1 b2 b3 :: wordsOfBytes rest
  | _ => []

/-- The bytes a host interface delivers for the given words (30_encoding.md R81). -/
def bytesOfWords (ws : List Word32) : List Byte :=
  match ws with
  | [] => []
  | w :: rest => byteOfWord w 0 :: byteOfWord w 1 :: byteOfWord w 2 :: byteOfWord w 3 :: bytesOfWords rest

/-- The five words (the longest command) of an instruction whose bits are `w`, numbered as spec/opcode_table.json numbers them; the bits from `nbits` up are 0. -/
def tableWords (nbits w : Nat) : List Word32 :=
  let v := w % 2 ^ nbits
  [BitVec.ofNat 32 v, BitVec.ofNat 32 (v / 2 ^ 32), BitVec.ofNat 32 (v / 2 ^ 64),
    BitVec.ofNat 32 (v / 2 ^ 96), BitVec.ofNat 32 (v / 2 ^ 128)]

/-- What the decoder reads from an instruction whose bits are `w`: its words delivered as bytes in the order of 30_encoding.md R81, made words again, and decoded. -/
def decodeTableWord (nbits w : Nat) : Option Instr :=
  match decode (wordsOfBytes (bytesOfWords (tableWords nbits w))) with
  | .ok i => some i
  | .error _ => none

end Sys2Proof
end

