-- ==== Sys2Proof/Config.lean ====
section
/-! DEFINITION. The named parameters of 00_scope.md R6: those with listed values as plain data, the open ones and the free values as constants with no body. -/

namespace Sys2Proof

/-- `WINDOW_MODE` (00_scope.md R6, 42_brightness.md R155, D14). -/
inductive WindowMode where
  | faithful
  | corrected
  deriving DecidableEq, Repr

/-- `BR_INDEX` (00_scope.md R6, 42_brightness.md R155, D15). -/
inductive BrIndex where
  | absolute
  | relative
  deriving DecidableEq, Repr

/-- `ORACLE` (00_scope.md R6, 20_memory.md R66, D18). -/
inductive Oracle where
  | any
  | sim
  deriving DecidableEq, Repr

/-- Whether the platform's transport delivers every transaction (70_reset_and_hazards.md R213) or may lose one unseen (20_memory.md R58). The model's own parameter, DESIGN CHOICE, log entry 9. It matters to the device's contents under the oracle `any` only. -/
inductive Transport where
  | reliable
  | lossy
  deriving DecidableEq, Repr

/-- The parameters a model takes as arguments (00_scope.md R6), fixed for a machine: no step changes them. -/
structure Params where
  windowMode : WindowMode
  brIndex : BrIndex
  oracle : Oracle
  transport : Transport
  deriving DecidableEq, Repr

/-- The defaults of 00_scope.md R6, with the transport of log entry 9 (unsafe only if read as a claim about a platform; a claim should hold for every value). -/
def Params.default : Params :=
  { windowMode := .faithful, brIndex := .absolute, oracle := .any, transport := .lossy }

/-- `DEV_POR`: the device's power-on register contents (00_scope.md R6, D25). OPEN: nothing constrains it; MODE1.SLEEP is forced to 1 where it is used. -/
opaque Config.devPor : RegAddr → Byte

/-- Which free value of a device: the device (0 the one the block drives, k + 1 the k-th other device on the bus) and the number of the transaction, log entries 6 and 31. -/
structure Draw where
  device : Nat
  number : Nat
  deriving DecidableEq, Repr

/-- `AI_OFF_LANDING`: where byte k of a 4-byte write to the given start address lands when MODE1.AI = 0, or nowhere (00_scope.md R6, D26). OPEN, by draw. -/
opaque Config.aiOffLanding : Draw → RegAddr → Nat → Option RegAddr

/-- The byte a read returns under the oracle `any`: a free draw under no law (20_memory.md R66), by draw number. -/
opaque Config.anyRead : Nat → Byte

/-- Device register contents that the spec leaves at `any value` (93_implementation_defined.md items 7, 13, 14), by draw. -/
opaque Config.freeRegs : Draw → RegAddr → Byte

end Sys2Proof
end

