-- ==== Sys2Proof/Machine/Memory.lean ====
section
/-! DEFINITION. The device register space as plain data: a list of (address, byte) cells in one canonical form, addresses strictly rising, no cell equal to what an unlisted address reads as (20_memory.md R50). -/

namespace Sys2Proof.Machine

/-- The 256 registers of the device register space (20_memory.md R50). -/
abbrev Memory := List Host.Cell

/-- What an unlisted address reads as. A convention of the representation only, since every one of the 256 registers holds a byte and is listed when it is not this one: DESIGN CHOICE, log entry 13. -/
def Memory.unlisted : Byte := 0x00#8

/-- Read the register with key `k`. -/
def Memory.lookup (m : Memory) (k : Nat) : Byte :=
  match m with
  | [] => Memory.unlisted
  | c :: rest => if c.1 = k then c.2 else Memory.lookup rest k

/-- Put a cell in front, or leave it out when an unlisted address reads the same. -/
def Memory.push (k : Nat) (b : Byte) (m : Memory) : Memory :=
  if b = Memory.unlisted then m else (k, b) :: m

/-- Store a byte under key `k`, keeping the canonical form. -/
def Memory.store (m : Memory) (k : Nat) (b : Byte) : Memory :=
  match m with
  | [] => Memory.push k b []
  | c :: rest =>
    if k < c.1 then Memory.push k b (c :: rest)
    else if k = c.1 then Memory.push k b rest
    else c :: Memory.store rest k b

/-- Read one device register. -/
def Memory.read (m : Memory) (a : RegAddr) : Byte := Memory.lookup m a.toNat

/-- Write one device register. -/
def Memory.write (m : Memory) (a : RegAddr) (b : Byte) : Memory := Memory.store m a.toNat b

/-- The canonical form from key `lo` on. -/
def Memory.wfFrom (lo : Nat) (m : Memory) : Bool :=
  match m with
  | [] => true
  | c :: rest =>
    decide (lo ≤ c.1) && decide (c.1 < 256) && decide (c.2 ≠ Memory.unlisted) && Memory.wfFrom (c.1 + 1) rest

/-- The canonical form: addresses strictly rising below 256, no cell equal to an unlisted address's byte. -/
def Memory.wf (m : Memory) : Bool := Memory.wfFrom 0 m

/-- The registers below key `n` holding what `f` gives, every other one unlisted. -/
def Memory.fill (f : RegAddr → Byte) (n : Nat) : Memory :=
  match n with
  | 0 => []
  | k + 1 => Memory.store (Memory.fill f k) k (f (BitVec.ofNat 8 k))

/-- The register file whose contents are `f`; not unfolded by tactics (256 registers), see `Memory.read_ofFun`. -/
@[irreducible] def Memory.ofFun (f : RegAddr → Byte) : Memory := Memory.fill f 256

end Sys2Proof.Machine
end

