-- ==== Sys2Proof/Machine/Operands.lean ====
section
/-! DEFINITION. Operand forms and the byte blocks they are turned into: register addresses, channel lists and windows, payload bytes, the fixed patterns and the brightness encoders. -/

namespace Sys2Proof.Machine

/-- Device register MODE1 (20_memory.md R51). -/
def regMode1 : RegAddr := 0x00#8

/-- Device register MODE2 (20_memory.md R51). -/
def regMode2 : RegAddr := 0x01#8

/-- First register of the ALL_LED block (20_memory.md R51). -/
def regAllLed : RegAddr := 0xFA#8

/-- The all-call address 0x70 (00_scope.md R11, 30_encoding.md R96). -/
def allCallAddr : BusAddr := 0x70#7

/-- A device register's byte after device power-on: DEV_POR, with MODE1.SLEEP = 1 (10_state.md R35, D25). -/
def powerOnByte (a : RegAddr) : Byte :=
  if a = regMode1 then Config.devPor a ||| 0x10#8 else Config.devPor a

/-- `LED(n) = n*4 + 6`, the base of channel n's block (20_memory.md R52). -/
def led (n : Chan) : RegAddr := BitVec.ofNat 8 (n.toNat * 4 + 6)

/-- Channels 0 to 15 in increasing order (41_switch.md R133). -/
def allChannels : List Chan := (List.range 16).map (BitVec.ofNat 4)

/-- The bytes of a block in register order (10_state.md R31, 20_memory.md R59). -/
def blockBytes (b : ChannelBlock) : List Byte := [b.onL, b.onH, b.offL, b.offH]

/-- `ON_BLK` (41_switch.md R130). -/
def onBlk : ChannelBlock := { onL := 0x00#8, onH := 0x10#8, offL := 0x00#8, offH := 0x00#8 }

/-- `OFF_BLK` (41_switch.md R130). -/
def offBlk : ChannelBlock := { onL := 0x00#8, onH := 0x00#8, offL := 0x00#8, offH := 0x10#8 }

/-- The pattern SETBITS gives a channel: ON_BLK if its bit is 1, else OFF_BLK (41_switch.md R133). -/
def patternBlk (bit : Bool) : ChannelBlock := if bit then onBlk else offBlk

/-- Channel i's bit of a mask (30_encoding.md R86). -/
def maskBit (mask : BitVec 16) (i : Chan) : Bool := mask.getLsbD i.toNat

/-- The channels whose mask bit is 1, in increasing order (41_switch.md R134, R135). -/
def maskChannels (mask : BitVec 16) : List Chan := allChannels.filter (fun i => maskBit mask i)

/-- `Enc(b, c)`: the channel brightness encoder (42_brightness.md R150). -/
def enc (b : Byte) (c : Chan) : ChannelBlock :=
  { onL := 0x00#8
    onH := c.setWidth 8
    offL := b <<< 4
    offH := (c.setWidth 8 + (b >>> 4)) &&& 0x0F#8 }

/-- `EncAll(b)`: the all-channel encoder (42_brightness.md R152). -/
def encAll (b : Byte) : ChannelBlock :=
  { onL := 0x00#8, onH := 0x00#8, offL := b <<< 4, offH := (b >>> 4) &&& 0x0F#8 }

/-- Payload word `Pk` (30_encoding.md R89). -/
def payloadWord (p : Payload) (k : Nat) : Word32 :=
  match k with
  | 0 => p.p0
  | 1 => p.p1
  | 2 => p.p2
  | _ => p.p3

/-- `BRV[j]`, with j = 4k + m: bits 8m+7:8m of `Pk` (30_encoding.md R89). -/
def brv (p : Payload) (j : Chan) : Byte :=
  (payloadWord p (j.toNat / 4)).extractLsb' (8 * (j.toNat % 4)) 8

/-- `val(i)`, channel i's brightness in SETBRS (42_brightness.md R155): `BRV[i]`, or `BRV[(i - FIRST) mod 16]` when BR_INDEX is relative. -/
def windowValue (mode : BrIndex) (first : Chan) (p : Payload) (i : Chan) : Byte :=
  match mode with
  | .absolute => brv p i
  | .relative => brv p (i - first)

/-- The channels of a SETBRS window under WINDOW_MODE = faithful: FIRST to last - 1, last = (FIRST + COUNT - 1) mod 16, nothing if last ≤ FIRST (42_brightness.md R156). -/
def windowFaithful (first : Chan) (count : BitVec 5) : List Chan :=
  let last := (first.toNat + count.toNat - 1) % 16
  (List.range' first.toNat (last - first.toNat)).map (BitVec.ofNat 4)

/-- The channels of a SETBRS window under WINDOW_MODE = corrected: (FIRST + k) mod 16 for k = 0 to COUNT - 1 (42_brightness.md R157). -/
def windowCorrected (first : Chan) (count : BitVec 5) : List Chan :=
  (List.range count.toNat).map (fun k => BitVec.ofNat 4 ((first.toNat + k) % 16))

/-- The channels SETBRS writes, in order (42_brightness.md R155). -/
def windowChannels (mode : WindowMode) (first : Chan) (count : BitVec 5) : List Chan :=
  match mode with
  | .faithful => windowFaithful first count
  | .corrected => windowCorrected first count

/-- Channel base + k of an RGB group, base = 3*GROUP (42_brightness.md R158). -/
def rgbChannel (group : BitVec 3) (k : Nat) : Chan := BitVec.ofNat 4 (3 * group.toNat + k)

/-- COUNT of SETBRS is legal: 1 to 16 (30_encoding.md R89, D16). -/
def countLegal (count : BitVec 5) : Bool := decide (1 ≤ count.toNat) && decide (count.toNat ≤ 16)

/-- GROUP of SETRGB is legal: 0 to 4 (30_encoding.md R90, D17). -/
def groupLegal (group : BitVec 3) : Bool := decide (group.toNat ≤ 4)

end Sys2Proof.Machine
end

