-- ==== Sys2Proof/Machine/State.lean ====
section
/-! DEFINITION. The machine's state as plain data: the block's fields (10_state.md R21), its sequencer position (R26), the transport's selected address (20_memory.md R56), the device's register file (10_state.md R27), the host's command stream (30_encoding.md R80) and the parameters (00_scope.md R6). -/

namespace Sys2Proof.Machine

/-- One transaction in the event log (20_memory.md R57). -/
inductive Event where
  /-- `A(d)`: SetDeviceAddress (R56). -/
  | A (d : BusAddr)
  /-- `W(a, bytes)`: a write transaction (R54). -/
  | W (a : RegAddr) (bytes : List Byte)
  /-- `R(a, n, bytes)`: a read transaction of n bytes and its answer (R55). -/
  | R (a : RegAddr) (n : Nat) (bytes : List Byte)
  deriving DecidableEq, Repr

/-- One transaction the sequencer has still to issue (10_state.md R26). -/
inductive MicroOp where
  /-- `SetDeviceAddress(d)`. -/
  | selectDevice (d : BusAddr)
  /-- `MemWrite(a, n, bytes)`, n the number of bytes. -/
  | write (a : RegAddr) (bytes : List Byte)
  /-- INIT's `MemWrite(a, n, bytes)`: its own read-back, still to come, says whether OK = 1 (40_mode.md R110), log entry 32. -/
  | initWrite (a : RegAddr) (bytes : List Byte)
  /-- `MemRead(a, 1)` into the latch. -/
  | read (a : RegAddr)
  /-- SLEEP's write of MODE1: the latched byte with bit 4 set or cleared (40_mode.md R112). -/
  | writeSleep (e : Bool)
  deriving DecidableEq, Repr

/-- A device on the bus besides the one the block drives: its own bus address and its register file (60_exceptions.md R188, 70_reset_and_hazards.md R216), log entry 31. -/
structure BusDevice where
  addr : BusAddr
  regs : Memory
  deriving DecidableEq, Repr

/-- Why a step stops. -/
inductive Fault where
  /-- Raised by `step` alone, when the block is faulted (FLT = 1): it "takes no further command and issues no further transaction until block reset" (60_exceptions.md R183). The cause code is FCODE. Safe: nothing is claimed of what follows. -/
  | blockFaulted (code : BitVec 4)
  deriving DecidableEq, Repr

/-- Why an instruction has no meaning. -/
inductive Refusal where
  /-- Raised by an arm of `exec` for an instruction not modelled yet; no arm of this model raises it. Safe. -/
  | notModelled (mnemonic : String)
  deriving DecidableEq, Repr

/-- The whole state. Fields `addr` to `log` are the block's own (10_state.md R21). -/
structure State where
  /-- S.ADDR: `none` is the spec's own "holds no value" (R21, R210), log entry 14. -/
  addr : Option BusAddr
  /-- S.CFG. -/
  cfg : Bool
  /-- S.OK. -/
  ok : Bool
  /-- S.FLT. -/
  flt : Bool
  /-- S.FCODE. -/
  fcode : BitVec 4
  /-- S.cp, unbounded (R25). -/
  cp : Nat
  /-- S.LOG (20_memory.md R57), oldest first. -/
  log : List Event
  /-- The transactions the command in progress has still to issue; empty between commands (R26), log entry 15. -/
  seq : List MicroOp
  /-- The byte the command in progress has read; 0x00 between commands (R26), log entry 15. -/
  latch : Byte
  /-- The bus address the transport talks to; `none` before the first SetDeviceAddress (20_memory.md R56), log entry 14. -/
  busAddr : Option BusAddr
  /-- The device's register file (10_state.md R27). -/
  dev : Memory
  /-- The other devices on the bus (60_exceptions.md R188, 70_reset_and_hazards.md R216), log entry 31. -/
  others : List BusDevice
  /-- The host's command words, indexed by `cp` (30_encoding.md R80), log entry 4. -/
  stream : List Word32
  /-- The parameters (00_scope.md R6), log entry 5; no step changes them. -/
  params : Params
  /-- The model's own counter, which numbers the free values; every transaction, and INIT's verdict, advances it, log entry 6. -/
  draws : Nat
  deriving DecidableEq, Repr

/-- The machine after block reset and device power-on (70_reset_and_hazards.md R210, 10_state.md R35), with nothing issued by the host yet. -/
def State.reset : State :=
  { addr := none
    cfg := false
    ok := false
    flt := false
    fcode := 0#4
    cp := 0
    log := []
    seq := []
    latch := 0x00#8
    busAddr := none
    dev := Memory.ofFun powerOnByte
    others := []
    stream := []
    params := Params.default
    draws := 0 }

end Sys2Proof.Machine
end

