-- ==== Sys2Proof/Machine/Flags.lean ====
section
/-! DEFINITION. Flag computations: the STATUS register, fault codes, the read-back test, the mode-register values and the fields of a channel block. -/

namespace Sys2Proof.Machine

/-- The code recorded in FCODE (60_exceptions.md R181). -/
def faultCodeBits (c : FaultCode) : BitVec 4 :=
  match c with
  | .illegalOpcode => 1#4
  | .truncated => 2#4
  | .reservedField => 3#4
  | .illegalOperand => 4#4
  | .notInitialized => 5#4

/-- STATUS: bit 0 CFG, bit 1 OK, bit 2 FLT, bit 3 reads 0, bits 7:4 FCODE (10_state.md R23). -/
def statusByte (cfg ok flt : Bool) (fcode : BitVec 4) : Byte :=
  fcode ++ 0#1 ++ BitVec.ofBool flt ++ BitVec.ofBool ok ++ BitVec.ofBool cfg

/-- What the host reads from STATUS; reading changes nothing (10_state.md R23). -/
def State.status (s : State) : Byte := statusByte s.cfg s.ok s.flt s.fcode

/-- The MODE1 value INIT writes and expects back: AUTO_INCREMENT | ALL_CALL (40_mode.md R114). -/
def mode1Init : Byte := 0x20#8 ||| 0x01#8

/-- INIT's read-back test: equality in all eight bits (40_mode.md R111). -/
def initOk (v : Byte) : Bool := decide (v = mode1Init)

/-- The MODE2 value INIT writes: DRV masked with 0x17 (10_state.md R29, 40_mode.md R110). -/
def mode2Init (drv : Byte) : Byte := drv &&& 0x17#8

/-- The MODE1 value SLEEP writes back: bit 4 set or cleared, every other bit as read (40_mode.md R112). -/
def sleepByte (e : Bool) (v : Byte) : Byte := if e then v ||| 0x10#8 else v &&& 0xEF#8

/-- MODE1.AUTO_INCREMENT, bit 5 (10_state.md R28). -/
def autoIncrement (mode1 : Byte) : Bool := mode1.getLsbD 5

/-- MODE1.ALL_CALL, bit 0 (10_state.md R28): the device answers the all-call address. -/
def answersAllCall (mode1 : Byte) : Bool := mode1.getLsbD 0

/-- MODE1.SLEEP, bit 4 (10_state.md R28). -/
def deviceAsleep (mode1 : Byte) : Bool := mode1.getLsbD 4

/-- MODE1.RESTART or MODE1.EXTCLK is 1, bits 7 and 6 (10_state.md R28): features whose effect the spec does not give. -/
def restartOrExtclk (mode1 : Byte) : Bool := mode1.getLsbD 7 || mode1.getLsbD 6

/-- `on12` (10_state.md R31). -/
def on12 (b : ChannelBlock) : Nat := (b.onH.extractLsb' 0 4).toNat * 256 + b.onL.toNat

/-- `off12` (10_state.md R31). -/
def off12 (b : ChannelBlock) : Nat := (b.offH.extractLsb' 0 4).toNat * 256 + b.offL.toNat

/-- The duty cycle `(off12 - on12) mod 4096` (00_scope.md R12). R12 defines it "with neither full flag set"; the number answered for a block with FULL_ON or FULL_OFF is the model's own, DESIGN CHOICE, log entry 26, and no statement is about it. -/
def duty (b : ChannelBlock) : Nat := (off12 b + 4096 - on12 b) % 4096

/-- The FULL_ON flag, bit 4 of ON_H (10_state.md R31). -/
def fullOn (b : ChannelBlock) : Bool := b.onH.getLsbD 4

/-- The FULL_OFF flag, bit 4 of OFF_H (10_state.md R31). -/
def fullOff (b : ChannelBlock) : Bool := b.offH.getLsbD 4

end Sys2Proof.Machine
end

