-- ==== Sys2Proof/Machine/Device.lean ====
section
/-! DEFINITION. What a transaction does to the registers of the devices it goes to: the simulated device of 20_memory.md R67 under the oracle `sim`; under `any`, the device of R63 and R64 as far as the spec gives it, every register it leaves open holding a free value. -/

namespace Sys2Proof.Machine

/-- The offset 0 to 3 of an address in the ALL_LED block 0xFA to 0xFD (20_memory.md R51). -/
def aliasOffset (a : RegAddr) : Option Nat :=
  if 0xFA ≤ a.toNat ∧ a.toNat ≤ 0xFD then some (a.toNat - 0xFA) else none

/-- One byte of an ALL_LED write reaching the same offset of the given channels' blocks (20_memory.md R63(a), R67). -/
def fanOut (off : Nat) (b : Byte) (channels : List Chan) (m : Memory) : Memory :=
  match channels with
  | [] => m
  | c :: rest => fanOut off b rest (Memory.write m (led c + BitVec.ofNat 8 off) b)

/-- One byte landing at address `a`; at an ALL_LED address it also reaches every channel, and the alias register itself holds `own` (20_memory.md R67; 10_state.md R32). Every other register keeps its byte: under `any` that is log entry 29 for a register the source does not list. -/
def landByte (own : Byte) (a : RegAddr) (b : Byte) (m : Memory) : Memory :=
  match aliasOffset a with
  | none => Memory.write m a b
  | some off => fanOut off b allChannels (Memory.write m a own)

/-- Bytes landing one by one at consecutive addresses from `a`, each as `land` says (20_memory.md R54, R64). -/
def landBytes (land : RegAddr → Byte → Memory → Memory) (a : RegAddr) (bytes : List Byte) (m : Memory) : Memory :=
  match bytes with
  | [] => m
  | b :: rest => landBytes land (a + 1#8) rest (land a b m)

/-- One byte landing on the simulated device: an ALL_LED register holds the byte written (20_memory.md R67). -/
def simLand (a : RegAddr) (b : Byte) (m : Memory) : Memory := landByte b a b m

/-- A write on the simulated device, whatever MODE1.AI holds (20_memory.md R67). -/
def simWrite (a : RegAddr) (bytes : List Byte) (m : Memory) : Memory := landBytes simLand a bytes m

/-- A byte reaching MODE1 under `any`: with RESTART or EXTCLK set, what the device then holds is not in the source; with SLEEP set, which registers survive is not (40_mode.md R112, 91_not_in_source.md §10 and §60), log entry 11. Those registers hold free values. That every register but MODE1 keeps its byte when the device is woken (a byte with bit 4 clear, whatever the device held or was sent while asleep) is the model's own: R190 and 91_not_in_source.md §60 leave survival of device sleep open, DESIGN CHOICE, log entry 28. -/
def writeMode1 (draw : Draw) (b : Byte) (m : Memory) : Memory :=
  if restartOrExtclk b then Memory.ofFun (Config.freeRegs draw)
  else if deviceAsleep b then Memory.write (Memory.ofFun (Config.freeRegs draw)) regMode1 b
  else Memory.write m regMode1 b

/-- One byte landing under `any` (20_memory.md R63). What an ALL_LED register itself then holds is not in the source, a free value (93_implementation_defined.md item 13), log entry 12. A register the byte does not reach keeps what it held, also one the source does not list (20_memory.md R51, 93_implementation_defined.md item 15): DESIGN CHOICE, log entry 29. -/
def anyLand (draw : Draw) (a : RegAddr) (b : Byte) (m : Memory) : Memory :=
  if a = regMode1 then writeMode1 draw b m else landByte (Config.freeRegs draw a) a b m

/-- The bytes of a 4-byte write landing where AI_OFF_LANDING says, byte `k` onwards (20_memory.md R64, D26). -/
def landScattered (draw : Draw) (a : RegAddr) (k : Nat) (bytes : List Byte) (m : Memory) : Memory :=
  match bytes with
  | [] => m
  | b :: rest =>
    landScattered draw a (k + 1) rest
      (match Config.aiOffLanding draw a k with
       | none => m
       | some x => anyLand draw x b m)

/-- A delivered write under `any`: one byte lands at its address; several land in order while MODE1.AI = 1 and as AI_OFF_LANDING says otherwise (20_memory.md R63, R64). It lands at once also right after a write that woke the device: whether the device needs a delay there is open (70_reset_and_hazards.md R219, 91_not_in_source.md §60), DESIGN CHOICE, log entry 30. -/
def deliveredWrite (draw : Draw) (a : RegAddr) (bytes : List Byte) (m : Memory) : Memory :=
  match bytes with
  | [b] => anyLand draw a b m
  | _ =>
    if autoIncrement (Memory.read m regMode1) then landBytes (anyLand draw) a bytes m
    else landScattered draw a 0 bytes m

/-- The write goes to the all-call address and the device does not answer all-call: no rule gives its effect on that device (10_state.md R28, 70_reset_and_hazards.md R216), log entry 27. -/
def allCallOpen (selected : Option BusAddr) (m : Memory) : Bool :=
  decide (selected = some allCallAddr) && !answersAllCall (Memory.read m regMode1)

/-- A write under `any` on a device it goes to. It lands as delivered over a reliable transport while OK = 1 (`confirmed`; 70_reset_and_hazards.md R212, R213), log entry 32. Otherwise the device's contents are `any value`: the write may be lost unseen (20_memory.md R58, 93_implementation_defined.md item 7), log entry 9, or its effect is open, log entry 27. -/
def reachedWrite (t : Transport) (confirmed : Bool) (selected : Option BusAddr) (draw : Draw) (a : RegAddr)
    (bytes : List Byte) (m : Memory) : Memory :=
  match t with
  | .reliable =>
    if confirmed && !allCallOpen selected m then deliveredWrite draw a bytes m
    else Memory.ofFun (Config.freeRegs draw)
  | .lossy => Memory.ofFun (Config.freeRegs draw)

/-- The driven device's registers after a write transaction. -/
def deviceWrite (p : Params) (confirmed : Bool) (selected : Option BusAddr) (draw : Draw) (a : RegAddr)
    (bytes : List Byte) (m : Memory) : Memory :=
  match p.oracle with
  | .sim => simWrite a bytes m
  | .any => reachedWrite p.transport confirmed selected draw a bytes m

/-- A transaction to the selected address goes to this device: it has that address, or the address is the all-call address (20_memory.md R56, 70_reset_and_hazards.md R216). -/
def goesTo (selected : Option BusAddr) (d : BusDevice) : Bool :=
  decide (selected = some d.addr) || decide (selected = some allCallAddr)

/-- Apply `f` to the registers of each of the devices, numbered from `k`, that a transaction to the selected address goes to. -/
def onReached (selected : Option BusAddr) (f : Nat → Memory → Memory) (k : Nat) (ds : List BusDevice) :
    List BusDevice :=
  match ds with
  | [] => []
  | d :: rest =>
    (if goesTo selected d then { d with regs := f k d.regs } else d) :: onReached selected f (k + 1) rest

/-- The other devices after a write transaction: at 0x70 every one that answers all-call takes it (70_reset_and_hazards.md R216). On the simulated bus one device answers (20_memory.md R67). -/
def othersWrite (p : Params) (confirmed : Bool) (selected : Option BusAddr) (number : Nat) (a : RegAddr)
    (bytes : List Byte) (ds : List BusDevice) : List BusDevice :=
  match p.oracle with
  | .sim => ds
  | .any =>
    onReached selected
      (fun k => reachedWrite p.transport confirmed selected { device := k, number := number } a bytes) 1 ds

/-- The registers of a device under `any` once INIT's read-back is known: with OK = 0 nothing confirms that a write landed, and they are free values (70_reset_and_hazards.md R212, R213), log entry 32. -/
def confirmedRegs (ok : Bool) (draw : Draw) (m : Memory) : Memory :=
  if ok then m else Memory.ofFun (Config.freeRegs draw)

/-- The driven device's registers once INIT's read-back is known. -/
def deviceConfirm (p : Params) (ok : Bool) (draw : Draw) (m : Memory) : Memory :=
  match p.oracle with
  | .sim => m
  | .any => confirmedRegs ok draw m

/-- The other devices once INIT's read-back is known. -/
def othersConfirm (p : Params) (ok : Bool) (selected : Option BusAddr) (number : Nat) (ds : List BusDevice) :
    List BusDevice :=
  match p.oracle with
  | .sim => ds
  | .any => onReached selected (fun k => confirmedRegs ok { device := k, number := number }) 1 ds

/-- The registers of the device answering after SetDeviceAddress: the simulated device ignores the address (20_memory.md R67); under `any` a new address is another device, whose contents are free (60_exceptions.md R188), log entry 10. -/
def deviceSelect (p : Params) (draw : Draw) (old : Option BusAddr) (d : BusAddr) (m : Memory) : Memory :=
  match p.oracle with
  | .sim => m
  | .any => if old = some d then m else Memory.ofFun (Config.freeRegs draw)

/-- The oracle's answer to a 1-byte read (20_memory.md R66, R67). -/
def deviceRead (p : Params) (number : Nat) (a : RegAddr) (m : Memory) : Byte :=
  match p.oracle with
  | .sim => Memory.read m a
  | .any => Config.anyRead number

/-- The simulated device's reaction to one event of the log (20_memory.md R67): a write lands, a read and an address change nothing. -/
def simReact (m : Memory) (e : Event) : Memory :=
  match e with
  | .A _ => m
  | .W a bytes => simWrite a bytes m
  | .R _ _ _ => m

/-- The simulated device after the given events (20_memory.md R67). -/
def simReplay (m : Memory) (events : List Event) : Memory := events.foldl simReact m

end Sys2Proof.Machine
end

