-- ==== Sys2Proof/Machine/Ops.lean ====
section
/-! DEFINITION. The named operations over the state: the three transaction primitives (20_memory.md R54 to R56), the sequencer (10_state.md R26), completion (R25), fault entry (60_exceptions.md R183) and the fetch of the host's words (30_encoding.md R80). -/

namespace Sys2Proof.Machine

/-- Record a transaction in the log (20_memory.md R57) and number it. -/
def State.record (s : State) (e : Event) : State :=
  { s with log := s.log ++ [e], draws := s.draws + 1 }

/-- `SetDeviceAddress(d)` (20_memory.md R56). -/
def State.setDeviceAddress (s : State) (d : BusAddr) : State :=
  ({ s with
    busAddr := some d
    dev := deviceSelect s.params { device := 0, number := s.draws } s.busAddr d s.dev }).record (.A d)

/-- `MemWrite(a, n, bytes)` (20_memory.md R54), to every device the selected address reaches (R56, 70_reset_and_hazards.md R216). Nothing tells the block whether it arrived (R58); `confirmed` is whether OK = 1 stands for it (70_reset_and_hazards.md R213). -/
def State.memWrite (s : State) (confirmed : Bool) (a : RegAddr) (bytes : List Byte) : State :=
  ({ s with
    dev := deviceWrite s.params confirmed s.busAddr { device := 0, number := s.draws } a bytes s.dev
    others := othersWrite s.params confirmed s.busAddr s.draws a bytes s.others }).record (.W a bytes)

/-- `v <- MemRead(a, 1)`, v into the latch (20_memory.md R55). A read has no side effect on the device (R63, D18). -/
def State.memRead (s : State) (a : RegAddr) : State :=
  let v := deviceRead s.params s.draws a s.dev
  ({ s with latch := v }).record (.R a 1 [v])

/-- Issue one transaction. -/
def State.issue (s : State) (op : MicroOp) : State :=
  match op with
  | .selectDevice d => s.setDeviceAddress d
  | .write a bytes => s.memWrite s.ok a bytes
  | .initWrite a bytes => s.memWrite true a bytes
  | .read a => s.memRead a
  | .writeSleep e => s.memWrite s.ok regMode1 [sleepByte e s.latch]

/-- One sequencer step: issue the first pending transaction, if there is one (10_state.md R26, 20_memory.md R65). -/
def State.microStep (s : State) : State :=
  match s.seq with
  | [] => s
  | op :: rest => ({ s with seq := rest }).issue op

/-- `n` sequencer steps. -/
def State.microSteps (n : Nat) (s : State) : State :=
  match n with
  | 0 => s
  | k + 1 => State.microSteps k s.microStep

/-- Run a command's transactions, one sequencer step each, in order (20_memory.md R65). -/
def State.runSeq (s : State) (ops : List MicroOp) : State :=
  State.microSteps ops.length { s with seq := ops }

/-- A command completes: cp advances by its length and the sequencer position is gone (10_state.md R25, R26). -/
def State.complete (s : State) (len : Nat) : State :=
  { s with cp := s.cp + len, seq := [], latch := 0x00#8 }

/-- Fault entry (60_exceptions.md R183): FLT and FCODE are written, nothing else changes. -/
def State.raiseFault (s : State) (c : FaultCode) : State :=
  { s with flt := true, fcode := faultCodeBits c }

/-- A command other than INIT whose operands are legal: NOT_INITIALIZED while CFG = 0 (60_exceptions.md R181, R182), else its transactions and its completion. -/
def State.runCommand (s : State) (ops : List MicroOp) (len : Nat) : Host.Outcome State Fault Refusal :=
  if s.cfg then .next ((s.runSeq ops).complete len)
  else .next (s.raiseFault .notInitialized)

/-- The write of a channel's block: `MemWrite(LED(c), 4, block)` (20_memory.md R52, R61). -/
def channelWrite (c : Chan) (b : ChannelBlock) : MicroOp := .write (led c) (blockBytes b)

/-- The write of the ALL_LED block: `MemWrite(0xFA, 4, block)` (20_memory.md R51, R61). -/
def allLedWrite (b : ChannelBlock) : MicroOp := .write regAllLed (blockBytes b)

/-- The host's words from cp on: the next command and what follows it (30_encoding.md R80). -/
def State.pendingWords (s : State) : List Word32 := s.stream.drop s.cp

/-- A stream in which the words `ws` stand at index `n`, words before it kept (missing ones 0), words after them kept. -/
def placeWords (stream : List Word32) (n : Nat) (ws : List Word32) : List Word32 :=
  stream.take n ++ List.replicate (n - stream.length) 0#32 ++ ws ++ stream.drop (n + ws.length)

end Sys2Proof.Machine
end

