-- ==== Sys2Proof/Machine/Brightness.lean ====
section
/-! DEFINITION. The brightness commands SETBR, SETBRALL, SETBRS, SETRGB (42_brightness.md). -/

namespace Sys2Proof.Machine

/-- SETBR (42_brightness.md R153). -/
def execSetbr (br : Byte) (ch : Chan) (s : State) : Host.Outcome State Fault Refusal :=
  s.runCommand [channelWrite ch (enc br ch)] 1

/-- SETBRALL (42_brightness.md R154). -/
def execSetbrall (br : Byte) (s : State) : Host.Outcome State Fault Refusal :=
  s.runCommand [allLedWrite (encAll br)] 1

/-- SETBRS's transactions: what SETBR val(i), i would write, for each channel i of the window (42_brightness.md R155, R156, R157). -/
def setbrsOps (p : Params) (first : Chan) (count : BitVec 5) (payload : Payload) : List MicroOp :=
  (windowChannels p.windowMode first count).map
    (fun i => channelWrite i (enc (windowValue p.brIndex first payload i) i))

/-- SETBRS (42_brightness.md R155): ILLEGAL_OPERAND is checked before NOT_INITIALIZED (60_exceptions.md R182). -/
def execSetbrs (first : Chan) (count : BitVec 5) (payload : Payload) (s : State) :
    Host.Outcome State Fault Refusal :=
  if countLegal count then s.runCommand (setbrsOps s.params first count payload) 5
  else .next (s.raiseFault .illegalOperand)

/-- SETRGB's transactions, channel order base, base + 1, base + 2 (42_brightness.md R158). -/
def setrgbOps (v0 v1 v2 : Byte) (group : BitVec 3) : List MicroOp :=
  [channelWrite (rgbChannel group 0) (enc v0 (rgbChannel group 0)),
    channelWrite (rgbChannel group 1) (enc v1 (rgbChannel group 1)),
    channelWrite (rgbChannel group 2) (enc v2 (rgbChannel group 2))]

/-- SETRGB (42_brightness.md R158): ILLEGAL_OPERAND is checked before NOT_INITIALIZED (60_exceptions.md R182). -/
def execSetrgb (v0 v1 v2 : Byte) (group : BitVec 3) (s : State) : Host.Outcome State Fault Refusal :=
  if groupLegal group then s.runCommand (setrgbOps v0 v1 v2 group) 1
  else .next (s.raiseFault .illegalOperand)

end Sys2Proof.Machine
end

