-- ==== Sys2Proof/Machine/Mode.lean ====
section
/-! DEFINITION. The mode commands INIT and SLEEP (40_mode.md). -/

namespace Sys2Proof.Machine

/-- INIT's transactions, in order (40_mode.md R110). -/
def initOps (drv : Byte) (addr : BusAddr) : List MicroOp :=
  [.selectDevice addr, .initWrite regMode2 [mode2Init drv], .initWrite regMode1 [mode1Init], .read regMode1]

/-- INIT's result: OK from the byte read back, CFG = 1 whatever OK is (40_mode.md R110, R111, D11); and what OK says of the devices' contents (70_reset_and_hazards.md R212, R213). -/
def State.configure (s : State) : State :=
  { s with
    ok := initOk s.latch
    cfg := true
    dev := deviceConfirm s.params (initOk s.latch) { device := 0, number := s.draws } s.dev
    others := othersConfirm s.params (initOk s.latch) s.busAddr s.draws s.others
    draws := s.draws + 1 }

/-- INIT (40_mode.md R110): the only command that does not need CFG = 1. -/
def execInit (drv : Byte) (addr : BusAddr) (s : State) : Host.Outcome State Fault Refusal :=
  .next ((({ s with addr := some addr }).runSeq (initOps drv addr)).configure.complete 1)

/-- SLEEP's transactions: the read and the write of its read-modify-write (40_mode.md R112). -/
def sleepOps (e : Bool) : List MicroOp := [.read regMode1, .writeSleep e]

/-- SLEEP (40_mode.md R112). -/
def execSleep (e : Bool) (s : State) : Host.Outcome State Fault Refusal :=
  s.runCommand (sleepOps e) 1

end Sys2Proof.Machine
end

