-- ==== Sys2Proof/Machine/Switch.lean ====
section
/-! DEFINITION. The switching commands ALLON, ALLOFF, SETBITS, SETONMASK, SETOFFMASK (41_switch.md). -/

namespace Sys2Proof.Machine

/-- ALLON (41_switch.md R131). -/
def execAllon (s : State) : Host.Outcome State Fault Refusal :=
  s.runCommand [allLedWrite onBlk] 1

/-- ALLOFF (41_switch.md R132). -/
def execAlloff (s : State) : Host.Outcome State Fault Refusal :=
  s.runCommand [allLedWrite offBlk] 1

/-- SETBITS's transactions: every channel, in increasing order (41_switch.md R133). -/
def setbitsOps (mask : BitVec 16) : List MicroOp :=
  allChannels.map (fun i => channelWrite i (patternBlk (maskBit mask i)))

/-- SETBITS (41_switch.md R133). -/
def execSetbits (mask : BitVec 16) (s : State) : Host.Outcome State Fault Refusal :=
  s.runCommand (setbitsOps mask) 1

/-- One block written to each channel whose mask bit is 1, in increasing order (41_switch.md R134, R135). -/
def maskOps (mask : BitVec 16) (b : ChannelBlock) : List MicroOp :=
  (maskChannels mask).map (fun i => channelWrite i b)

/-- SETONMASK (41_switch.md R134). -/
def execSetonmask (mask : BitVec 16) (s : State) : Host.Outcome State Fault Refusal :=
  s.runCommand (maskOps mask onBlk) 1

/-- SETOFFMASK (41_switch.md R135). -/
def execSetoffmask (mask : BitVec 16) (s : State) : Host.Outcome State Fault Refusal :=
  s.runCommand (maskOps mask offBlk) 1

end Sys2Proof.Machine
end

