-- ==== Sys2Proof/Machine/Dispatch.lean ====
section
/-! DEFINITION. The dispatch: one arm per command, each a direct call of its meaning. -/

namespace Sys2Proof.Machine

def exec (i : Instr) (s : State) : Host.Outcome State Fault Refusal :=
  match i with
  -- mode commands (40_mode.md)
  | .init drv addr => Sys2Proof.Machine.execInit drv addr s
  | .sleep e => Sys2Proof.Machine.execSleep e s
  -- switching commands (41_switch.md)
  | .allon => Sys2Proof.Machine.execAllon s
  | .alloff => Sys2Proof.Machine.execAlloff s
  | .setbits mask => Sys2Proof.Machine.execSetbits mask s
  | .setonmask mask => Sys2Proof.Machine.execSetonmask mask s
  | .setoffmask mask => Sys2Proof.Machine.execSetoffmask mask s
  -- brightness commands (42_brightness.md)
  | .setbr br ch => Sys2Proof.Machine.execSetbr br ch s
  | .setbrall br => Sys2Proof.Machine.execSetbrall br s
  | .setbrs first count payload => Sys2Proof.Machine.execSetbrs first count payload s
  | .setrgb v0 v1 v2 group => Sys2Proof.Machine.execSetrgb v0 v1 v2 group s

end Sys2Proof.Machine
end

