-- ==== Sys2Proof/Machine/Step.lean ====
section
/-! DEFINITION. One step: the block takes the next command of the host's stream, whole (10_state.md R25, R26; 60_exceptions.md R182, R183). -/

namespace Sys2Proof.Machine

/-- One step. A faulted block takes no command: the fault outcome (60_exceptions.md R183). With no word pending the block waits for the host: nothing changes (70_reset_and_hazards.md R222), log entry 3. A header that fails checks (1) to (3) of R182 enters the fault; any other command is executed. -/
def step (s : State) : Host.Outcome State Fault Refusal :=
  if s.flt then .fault (.blockFaulted s.fcode)
  else
    match s.pendingWords with
    | [] => .next s
    | w :: ws =>
      match decode (w :: ws) with
      | .ok i => exec i s
      | .error c => .next (s.raiseFault c)

/-- `s` with an instruction's words standing at cp in the host's stream, where `step` takes its next command; nothing else is changed (log entry 20). -/
def State.withFetchWord (s : State) (nbits w : Nat) : State :=
  { s with stream := placeWords s.stream s.cp (tableWords nbits w) }

end Sys2Proof.Machine
end

