-- ==== Sys2Proof/Machine/Assembler.lean ====
section
/-! DEFINITION. The assembler's operand forms, symbols and pseudo-instructions (30_encoding.md R95, R96). Operands are natural numbers, and one out of its range is refused, not truncated; the text of a line is not modelled (log entry 22). -/

namespace Sys2Proof.Machine

/-- A line of assembler, operands in the order of 30_encoding.md R95 and R96. -/
inductive AsmLine where
  | init (drv addr : Nat)
  | initDefault (drv : Nat)
  | sleep (e : Nat)
  | wake
  | sleepOn
  | allon
  | alloff
  | setbits (mask : Nat)
  | setonmask (mask : Nat)
  | setoffmask (mask : Nat)
  | ledOn (ch : Nat)
  | ledOff (ch : Nat)
  | setbr (br ch : Nat)
  | setbrall (br : Nat)
  | setbrs (first count : Nat) (values : List Nat)
  | setrgb (v0 v1 v2 group : Nat)
  deriving DecidableEq, Repr

/-- Symbol `DRV_PMOS` (30_encoding.md R96, 10_state.md R30). -/
def drvPmos : Nat := 0x15

/-- Symbol `DRV_NMOS` (30_encoding.md R96, 10_state.md R30). -/
def drvNmos : Nat := 0x04

/-- Symbol `DRV_DIRECT` (30_encoding.md R96, 10_state.md R30). -/
def drvDirect : Nat := 0x13

/-- Symbol `ADDR_ALLCALL` (30_encoding.md R96). -/
def addrAllcall : Nat := 0x70

/-- An operand of `w` bits, refused when out of range (30_encoding.md R95). -/
def asmField (w v : Nat) : Option (BitVec w) :=
  if v < 2 ^ w then some (BitVec.ofNat w v) else none

/-- `INIT drv, addr`. -/
def asmInit (drv addr : Nat) : Option Instr :=
  match asmField 8 drv, asmField 7 addr with
  | some d, some a => some (.init d a)
  | _, _ => none

/-- `SLEEP e`. -/
def asmSleep (e : Nat) : Option Instr :=
  match e with
  | 0 => some (.sleep false)
  | 1 => some (.sleep true)
  | _ => none

/-- A command with one 16-bit mask operand. -/
def asmMask (make : BitVec 16 → Instr) (mask : Nat) : Option Instr :=
  match asmField 16 mask with
  | some m => some (make m)
  | none => none

/-- `LEDON ch` and `LEDOFF ch`: the mask command of `1 << ch` (30_encoding.md R96), ch a channel. -/
def asmLed (make : BitVec 16 → Instr) (ch : Nat) : Option Instr :=
  match asmField 4 ch with
  | some c => some (make (1#16 <<< c.toNat))
  | none => none

/-- Sixteen bytes as payload words, `BRV[4k + m]` at bits 8m+7:8m of `Pk` (30_encoding.md R89); refused unless there are exactly sixteen, each 0 to 255. -/
def asmPayload (values : List Nat) : Option Payload :=
  if values.length = 16 ∧ values.all (fun v => decide (v < 256)) then
    let word (k : Nat) : Word32 :=
      BitVec.ofNat 8 (values.getD (4 * k + 3) 0) ++ BitVec.ofNat 8 (values.getD (4 * k + 2) 0) ++
        BitVec.ofNat 8 (values.getD (4 * k + 1) 0) ++ BitVec.ofNat 8 (values.getD (4 * k) 0)
    some { p0 := word 0, p1 := word 1, p2 := word 2, p3 := word 3 }
  else none

/-- `SETBRS first, count, [b0, ..., b15]`: count 1 to 16. -/
def asmSetbrs (first count : Nat) (values : List Nat) : Option Instr :=
  if 1 ≤ count ∧ count ≤ 16 then
    match asmField 4 first, asmPayload values with
    | some f, some p => some (.setbrs f (BitVec.ofNat 5 count) p)
    | _, _ => none
  else none

/-- `SETRGB [v0, v1, v2], group`: group 0 to 4. -/
def asmSetrgb (v0 v1 v2 group : Nat) : Option Instr :=
  if group ≤ 4 then
    match asmField 8 v0, asmField 8 v1, asmField 8 v2 with
    | some a, some b, some c => some (.setrgb a b c (BitVec.ofNat 3 group))
    | _, _, _ => none
  else none

/-- The command a line stands for, or none where the assembler refuses it (30_encoding.md R95, R96). -/
def assemble (line : AsmLine) : Option Instr :=
  match line with
  | .init drv addr => asmInit drv addr
  | .initDefault drv => asmInit drv addrAllcall
  | .sleep e => asmSleep e
  | .wake => asmSleep 0
  | .sleepOn => asmSleep 1
  | .allon => some .allon
  | .alloff => some .alloff
  | .setbits mask => asmMask .setbits mask
  | .setonmask mask => asmMask .setonmask mask
  | .setoffmask mask => asmMask .setoffmask mask
  | .ledOn ch => asmLed .setonmask ch
  | .ledOff ch => asmLed .setoffmask ch
  | .setbr br ch =>
    match asmField 8 br, asmField 4 ch with
    | some b, some c => some (.setbr b c)
    | _, _ => none
  | .setbrall br =>
    match asmField 8 br with
    | some b => some (.setbrall b)
    | none => none
  | .setbrs first count values => asmSetbrs first count values
  | .setrgb v0 v1 v2 group => asmSetrgb v0 v1 v2 group

end Sys2Proof.Machine
end

