-- ==== Sys2Proof/Machine/HostMoves.lean ====
section
/-! DEFINITION. What the outside does to the machine between commands: the host's moves (70_reset_and_hazards.md R222; reading STATUS is `State.status`) and device power-on (10_state.md R35). No step makes them. -/

namespace Sys2Proof.Machine

/-- The words are one command as a host sends it: one header word, and for SETBRS up to 4 payload words (70_reset_and_hazards.md R222). Fewer than 4 break the host's duty to send complete commands, and the block answers TRUNCATED (30_encoding.md R93), log entry 4. -/
def oneCommand (ws : List Word32) : Bool :=
  match ws with
  | [] => false
  | h :: rest => decide (rest.length + 1 ≤ opWords (opField h))

/-- The host may issue: the block has completed the previous command and is not faulted (70_reset_and_hazards.md R222). -/
def State.mayIssue (s : State) : Bool := !s.flt && decide (s.stream.length ≤ s.cp)

/-- The host issues a command, one at a time; at any other time, and for words that are not one command, the move has no step (70_reset_and_hazards.md R222). -/
def State.hostIssue (s : State) (ws : List Word32) : State :=
  if s.mayIssue && oneCommand ws then { s with stream := s.stream ++ ws } else s

/-- Block reset (70_reset_and_hazards.md R210): no transaction, no device register changed. The host starts a new stream, whose first word is at cp = 0 (log entry 16). -/
def State.blockReset (s : State) : State :=
  { s with
    addr := none
    cfg := false
    ok := false
    flt := false
    fcode := 0#4
    cp := 0
    log := []
    seq := []
    latch := 0x00#8
    stream := [] }

/-- Device power-on: the device's registers take DEV_POR with MODE1.SLEEP = 1; nothing of the block changes (10_state.md R35). -/
def State.devicePowerOn (s : State) : State := { s with dev := Memory.ofFun powerOnByte }

end Sys2Proof.Machine
end

