-- ==== Sys2Proof/WellFormed.lean ====
section
/-! DEFINITION. The operand ranges that a field's width does not already enforce (30_encoding.md R89, R90, R94(c)): COUNT of SETBRS is 1 to 16, GROUP of SETRGB is 0 to 4. -/

namespace Sys2Proof

/-- A command whose operands are all legal (30_encoding.md R94(c)). An ill-formed command can be encoded and is taken by the block, which then faults with ILLEGAL_OPERAND (60_exceptions.md R181). -/
def Instr.wellFormed (i : Instr) : Bool :=
  match i with
  | .init _ _ => true
  | .sleep _ => true
  | .allon => true
  | .alloff => true
  | .setbits _ => true
  | .setonmask _ => true
  | .setoffmask _ => true
  | .setbr _ _ => true
  | .setbrall _ => true
  | .setbrs _ count _ => decide (1 ≤ count.toNat) && decide (count.toNat ≤ 16)
  | .setrgb _ _ _ group => decide (group.toNat ≤ 4)

end Sys2Proof
end

