-- ==== Sys2Proof/Safety.lean ====
section
/-! DEFINITION. The terms claims are stated in: what a command leaves unchanged, when the device's contents are known, which transactions are legal, and the invariant of the machine. -/

namespace Sys2Proof.Machine

/-- What every command but INIT leaves unchanged when it completes: ADDR, CFG, OK, FLT, FCODE, the transport's address, the host's stream and the parameters; and the sequencer is idle again (10_state.md R22, R24, R26). -/
def CommandFrame (s t : State) : Prop :=
  t.addr = s.addr ∧ t.cfg = s.cfg ∧ t.ok = s.ok ∧ t.flt = s.flt ∧ t.fcode = s.fcode ∧
    t.busAddr = s.busAddr ∧ t.stream = s.stream ∧ t.params = s.params ∧ t.seq = [] ∧ t.latch = 0x00#8

/-- Address `x` is one of the four registers of a block that starts at `a`. -/
def inBlock (a x : RegAddr) : Prop := a.toNat ≤ x.toNat ∧ x.toNat < a.toNat + 4

/-- The device's registers after blocks are written to the listed channels, and nowhere else: byte k of a listed channel's block stands at `LED(c) + k`, and every other register is as before. -/
def ChannelsWritten (m m' : Memory) (channels : List Chan) (block : Chan → ChannelBlock) : Prop :=
  (∀ c ∈ channels, ∀ k, k < 4 →
      Memory.read m' (led c + BitVec.ofNat 8 k) = (blockBytes (block c)).getD k 0x00#8) ∧
    ∀ x, (∀ c ∈ channels, ¬ inBlock (led c) x) → Memory.read m' x = Memory.read m x

/-- The device's registers after a block is written to ALL_LED: every channel's block holds it, and every register outside the channel blocks and ALL_LED is as before (10_state.md R32). -/
def AllLedWritten (m m' : Memory) (block : ChannelBlock) : Prop :=
  (∀ c : Chan, ∀ k, k < 4 →
      Memory.read m' (led c + BitVec.ofNat 8 k) = (blockBytes block).getD k 0x00#8) ∧
    ∀ x, (∀ c : Chan, ¬ inBlock (led c) x) → ¬ inBlock regAllLed x → Memory.read m' x = Memory.read m x

/-- The ALL_LED registers hold a block's bytes, byte k at 0xFA + k, as on the simulated device after a write to ALL_LED (20_memory.md R67). -/
def AliasHolds (m : Memory) (block : ChannelBlock) : Prop :=
  ∀ k, k < 4 → Memory.read m (regAllLed + BitVec.ofNat 8 k) = (blockBytes block).getD k 0x00#8

/-- The four bytes of a block the block may write: not both full flags, and bits 7:5 of both high bytes 0 (10_state.md R31, 42_brightness.md R159). -/
def blockLegal (b : ChannelBlock) : Bool :=
  !(fullOn b && fullOff b) && decide (b.onH &&& 0xE0#8 = 0x00#8) && decide (b.offH &&& 0xE0#8 = 0x00#8)

/-- A start address of a 4-byte write: ALL_LED or a channel block (20_memory.md R53, R61). -/
def blockStart (a : RegAddr) : Bool := decide (a = regAllLed) || allChannels.any (fun c => decide (a = led c))

/-- A transaction the block may issue, by start address and width (20_memory.md R53, R61) and, for a 4-byte write, by its bytes. -/
def eventLegal (e : Event) : Bool :=
  match e with
  | .A _ => true
  | .W a [_] => decide (a = regMode1) || decide (a = regMode2)
  | .W a [onL, onH, offL, offH] =>
    blockStart a && blockLegal { onL := onL, onH := onH, offL := offL, offH := offH }
  | .W _ _ => false
  | .R a n bytes => decide (a = regMode1) && decide (n = 1) && decide (bytes.length = 1)

/-- The address the transport talks to after one more transaction (20_memory.md R56). -/
def selectedAfter (d : Option BusAddr) (e : Event) : Option BusAddr :=
  match e with
  | .A x => some x
  | .W _ _ => d
  | .R _ _ _ => d

/-- The address of the latest SetDeviceAddress in a log (20_memory.md R56). -/
def lastSelected (log : List Event) : Option BusAddr := log.foldl selectedAfter none

/-- The invariant every step keeps. -/
structure State.Inv (s : State) : Prop where
  /-- The register file keeps its canonical form. -/
  registersCanonical : Memory.wf s.dev = true
  /-- So does every other device's. -/
  othersCanonical : ∀ d ∈ s.others, Memory.wf d.regs = true
  /-- FCODE is 0 while FLT = 0 (10_state.md R21). -/
  noFaultNoCode : s.flt = false → s.fcode = 0#4
  /-- While FLT = 1, FCODE is one of the five codes (60_exceptions.md R181). -/
  faultHasCode : s.flt = true → 1 ≤ s.fcode.toNat ∧ s.fcode.toNat ≤ 5
  /-- Before INIT: no result, no address, no transaction (70_reset_and_hazards.md R211, 10_state.md R21). -/
  beforeInit : s.cfg = false → s.ok = false ∧ s.addr = none ∧ s.log = []
  /-- After INIT the block has an address and the transport talks to it (10_state.md R22, 20_memory.md R56). -/
  afterInit : s.cfg = true → s.addr.isSome = true ∧ s.busAddr = s.addr
  /-- The device selected last in the log is the one at ADDR (20_memory.md R56). -/
  selectedIsAddr : lastSelected s.log = s.addr
  /-- Every transaction issued is a legal one (20_memory.md R53, R61, 42_brightness.md R159). -/
  transactionsLegal : ∀ e ∈ s.log, eventLegal e = true
  /-- Between commands the sequencer is idle (10_state.md R26). -/
  sequencerIdle : s.seq = [] ∧ s.latch = 0x00#8
  /-- cp never passes the end of the host's stream (10_state.md R25, 30_encoding.md R93). -/
  cpInStream : s.cp ≤ s.stream.length

/-- Every read among the events was answered with the register the simulated device held then (20_memory.md R67). -/
def simAnswers (m : Memory) (events : List Event) : Prop :=
  match events with
  | [] => True
  | e :: rest =>
    (match e with
      | .A _ => True
      | .W _ _ => True
      | .R a n bytes => n = 1 ∧ bytes = [Memory.read m a]) ∧ simAnswers (simReact m e) rest

/-- Issue SETBR br, ch for each pair in turn; stop at the first outcome that is no next state (42_brightness.md R155, R158). -/
def runSetbr (writes : List (Byte × Chan)) (s : State) : Host.Outcome State Fault Refusal :=
  match writes with
  | [] => .next s
  | w :: rest =>
    match exec (.setbr w.1 w.2) s with
    | .next t => runSetbr rest t
    | .fault r => .fault r
    | .refused r => .refused r

end Sys2Proof.Machine
end

