-- ==== Sys2Proof/Certificates/Slice0/Obligations.lean ====
section
/-! DEFINITION. The statements for the provers, each a claim about every state or every operand of the machine; the spec's rule each rests on stands in its docstring. -/

open Sys2Proof Sys2Proof.Machine

/-! ### Encoding -/

/-- 30_encoding.md R80 to R92: decoding the words of any command, whatever follows them in the stream, gives that command with every operand at the value encoded. -/
def Obligations.DecodeOfEncode : Prop :=
  ∀ (i : Instr) (rest : List Word32), decode (encode i ++ rest) = .ok i

/-- 30_encoding.md R82 to R92: words that decode to a command begin with exactly that command's words, so no other word has its meaning and no reserved bit is ignored. -/
def Obligations.EncodeOfDecode : Prop :=
  ∀ (ws : List Word32) (i : Instr), decode ws = .ok i → ws.take (instrWords i) = encode i

/-- 95_test_vectors.md §2.1: the words the spec writes out decode to the commands they stand for. -/
def Obligations.SpecWordsDecode : Prop :=
  decode [0x00701301#32] = .ok (.init 0x13#8 0x70#7) ∧
  decode [0x00000102#32] = .ok (.sleep true) ∧
  decode [0x00000003#32] = .ok .allon ∧
  decode [0x00000004#32] = .ok .alloff ∧
  decode [0xA5A50005#32] = .ok (.setbits 0xA5A5#16) ∧
  decode [0x80010006#32] = .ok (.setonmask 0x8001#16) ∧
  decode [0x00060007#32] = .ok (.setoffmask 0x0006#16) ∧
  decode [0x0000F0F8#32] = .ok (.setbr 0xF0#8 15#4) ∧
  decode [0x00008009#32] = .ok (.setbrall 0x80#8) ∧
  decode [0x0000053A#32, 0x33221100#32, 0x77665544#32, 0xBBAA9988#32, 0xFFEEDDCC#32] =
    .ok (.setbrs 3#4 5#5
      { p0 := 0x33221100#32, p1 := 0x77665544#32, p2 := 0xBBAA9988#32, p3 := 0xFFEEDDCC#32 }) ∧
  decode [0x0302014B#32] = .ok (.setrgb 1#8 2#8 3#8 4#3)

/-- 30_encoding.md R81: byte k of a delivered word holds its bits 8k+7:8k, words delivered as bytes arrive unchanged, and a payload word carries its four brightness bytes in the same order. -/
def Obligations.WordByteOrder : Prop :=
  (∀ (b0 b1 b2 b3 : Byte) (rest : List Byte), ∃ w : Word32,
      wordsOfBytes (b0 :: b1 :: b2 :: b3 :: rest) = w :: wordsOfBytes rest ∧
      w.extractLsb' 0 8 = b0 ∧ w.extractLsb' 8 8 = b1 ∧ w.extractLsb' 16 8 = b2 ∧ w.extractLsb' 24 8 = b3) ∧
  (∀ ws : List Word32, wordsOfBytes (bytesOfWords ws) = ws) ∧
  (∀ (p : Payload) (m : Nat), m < 4 →
      brv p (BitVec.ofNat 4 m) = p.p0.extractLsb' (8 * m) 8 ∧
      brv p (BitVec.ofNat 4 (4 + m)) = p.p1.extractLsb' (8 * m) 8 ∧
      brv p (BitVec.ofNat 4 (8 + m)) = p.p2.extractLsb' (8 * m) 8 ∧
      brv p (BitVec.ofNat 4 (12 + m)) = p.p3.extractLsb' (8 * m) 8)

/-- 30_encoding.md R93: the length of a command depends on bits 3:0 of its header alone, and a SETBRS header followed by fewer than four words in the host's stream faults with TRUNCATED. -/
def Obligations.LengthFromOpcode : Prop :=
  (∀ (h : Word32) (rest : List Word32) (i : Instr), decode (h :: rest) = .ok i →
      instrWords i = if h.extractLsb' 0 4 = 0xA#4 then 5 else 1) ∧
  (∀ (s : State) (h : Word32) (rest : List Word32), s.flt = false → s.pendingWords = h :: rest →
      h.extractLsb' 0 4 = 0xA#4 → rest.length < 4 →
      decode s.pendingWords = .error .truncated ∧ step s = .next { s with flt := true, fcode := 2#4 })

/-- 20_memory.md R52: channel n's block starts at 4n+6, has four consecutive registers, ends at or below 0x45, the sixteen addresses are those the rule lists, and a channel write starts there. -/
def Obligations.ChannelBlockAddresses : Prop :=
  (∀ c : Chan, (led c).toNat = c.toNat * 4 + 6 ∧ 0x06 ≤ (led c).toNat ∧ (led c).toNat ≤ 0x42 ∧
      ∀ k, k < 4 → (led c + BitVec.ofNat 8 k).toNat = (led c).toNat + k ∧ (led c).toNat + k ≤ 0x45) ∧
  allChannels.map led =
    [0x06#8, 0x0A#8, 0x0E#8, 0x12#8, 0x16#8, 0x1A#8, 0x1E#8, 0x22#8,
      0x26#8, 0x2A#8, 0x2E#8, 0x32#8, 0x36#8, 0x3A#8, 0x3E#8, 0x42#8] ∧
  (∀ (br : Byte) (c : Chan) (s : State), s.cfg = true → ∃ (t : State) (a : RegAddr) (bytes : List Byte),
    exec (.setbr br c) s = .next t ∧ t.log = s.log ++ [.W a bytes] ∧ a.toNat = c.toNat * 4 + 6)

/-- 10_state.md R23, the layout of STATUS. -/
def Obligations.StatusLayout : Prop :=
  ∀ s : State, s.status.getLsbD 0 = s.cfg ∧ s.status.getLsbD 1 = s.ok ∧ s.status.getLsbD 2 = s.flt ∧
    s.status.getLsbD 3 = false ∧ s.status.extractLsb' 4 4 = s.fcode

/-! ### The step -/

/-- 30_encoding.md R80: when the block is not faulted and the words at cp decode to a command, the step is exec of that command at that state, with nothing added. -/
def Obligations.StepRunsDecoded : Prop :=
  ∀ (s : State) (i : Instr), s.flt = false → s.pendingWords ≠ [] → decode s.pendingWords = .ok i →
    step s = exec i s

/-- The model's choice (log entry 3): with no word pending an unfaulted block waits, and nothing changes. -/
def Obligations.IdleStepChangesNothing : Prop :=
  ∀ s : State, s.flt = false → s.stream.length ≤ s.cp → step s = .next s

/-- The model's own placing of an instruction (log entry 20): the next step runs exactly the command the decoder reads from it. -/
def Obligations.PlacedWordIsRun : Prop :=
  ∀ (s : State) (nbits w : Nat) (i : Instr), s.flt = false → decodeTableWord nbits w = some i →
    step (s.withFetchWord nbits w) = exec i (s.withFetchWord nbits w)

/-- 60_exceptions.md R182, with the causes and codes of R181: the command at cp meets the five checks in this order, the first that fails alone gives the fault, nothing else changes, and a command that passes them all is executed and faults not. -/
def Obligations.FaultPriority : Prop :=
  ∀ (s : State) (h : Word32) (rest : List Word32), s.flt = false → s.pendingWords = h :: rest →
    if opField h = 0x0#4 ∨ 0xC ≤ (opField h).toNat then
      step s = .next { s with flt := true, fcode := 1#4 }
    else if opField h = 0xA#4 ∧ rest.length < 4 then
      step s = .next { s with flt := true, fcode := 2#4 }
    else if h &&& reservedBits (opField h) ≠ 0#32 then
      step s = .next { s with flt := true, fcode := 3#4 }
    else if (opField h = 0xA#4 ∧ (h.extractLsb' 8 5 = 0#5 ∨ 17 ≤ (h.extractLsb' 8 5).toNat)) ∨
        (opField h = 0xB#4 ∧ 5 ≤ (h.extractLsb' 4 3).toNat) then
      step s = .next { s with flt := true, fcode := 4#4 }
    else if opField h ≠ 0x1#4 ∧ s.cfg = false then
      step s = .next { s with flt := true, fcode := 5#4 }
    else
      ∃ (i : Instr) (t : State), decode (h :: rest) = .ok i ∧ step s = exec i s ∧ step s = .next t ∧ t.flt = false

/-- 60_exceptions.md R183: a step that enters a fault writes FLT and FCODE and nothing else, STATUS shows it, and the block takes no further command: its next step is the fault outcome. -/
def Obligations.FaultEntryIsPrecise : Prop :=
  ∀ s t : State, s.flt = false → step s = .next t → t.flt = true →
    (∃ c : FaultCode, t = { s with flt := true, fcode := faultCodeBits c }) ∧
      t.status.getLsbD 2 = true ∧ step t = .fault (.blockFaulted t.fcode)

/-- 60_exceptions.md R184: a faulted block takes no command, so FCODE keeps the first cause; block reset clears FLT and FCODE. -/
def Obligations.OnlyResetClearsFault : Prop :=
  ∀ s : State, s.flt = true →
    step s = .fault (.blockFaulted s.fcode) ∧ (∀ ws, step (s.hostIssue ws) = .fault (.blockFaulted s.fcode)) ∧
      s.blockReset.flt = false ∧ s.blockReset.fcode = 0#4

/-- 10_state.md R25: a command that completes moves cp past its 1 or 5 words, one that faults leaves it, and with no command to take it stays. -/
def Obligations.CommandPointerAdvance : Prop :=
  ∀ s t : State, s.flt = false → step s = .next t →
    (t.flt = true ∧ t.cp = s.cp) ∨
    (t.flt = false ∧ s.pendingWords = [] ∧ t.cp = s.cp) ∨
    (t.flt = false ∧ ∃ i, decode s.pendingWords = .ok i ∧
      t.cp = s.cp + (match i with
        | .setbrs _ _ _ => 5
        | .init _ _ => 1 | .sleep _ => 1 | .allon => 1 | .alloff => 1 | .setbits _ => 1 | .setonmask _ => 1
        | .setoffmask _ => 1 | .setbr _ _ => 1 | .setbrall _ => 1 | .setrgb _ _ _ _ => 1))

/-! ### Reset -/

/-- 70_reset_and_hazards.md R210: the values reset leaves, at State.reset and at a block reset of any state, which issues no transaction and changes no device register. -/
def Obligations.ResetValues : Prop :=
  (∀ s : State, s = State.reset ∨ (∃ u : State, s = u.blockReset) →
    s.addr = none ∧ s.cfg = false ∧ s.ok = false ∧ s.flt = false ∧ s.fcode = 0#4 ∧ s.cp = 0 ∧ s.log = [] ∧
      s.status = 0x00#8) ∧
  (∀ u : State, u.blockReset.dev = u.dev)

/-- 10_state.md R35: after device power-on MODE1.SLEEP is 1 and every other register is what DEV_POR gives, whatever that is; the block is unchanged, and a block reset changes no device register. That State.reset is such a state is the model's choice (log entry 7): it is block reset and device power-on both, which R35 calls independent events. -/
def Obligations.DevicePowerOnState : Prop :=
  (∀ s : State, s = State.reset ∨ (∃ u : State, s = u.devicePowerOn) →
    Memory.read s.dev 0x00#8 = Config.devPor 0x00#8 ||| 0x10#8 ∧ (Memory.read s.dev 0x00#8).getLsbD 4 = true ∧
      ∀ a : RegAddr, a ≠ 0x00#8 → Memory.read s.dev a = Config.devPor a) ∧
  (∀ u : State, u.devicePowerOn = { u with dev := u.devicePowerOn.dev }) ∧
  (∀ u : State, u.blockReset.dev = u.dev)

/-! ### Whole-machine rules -/

/-- The machine's invariant (State.Inv) is kept by every step, from every state that meets it. -/
def Obligations.StepKeepsInvariant : Prop :=
  ∀ s t : State, s.Inv → step s = .next t → t.Inv

/-- The state after reset meets the invariant. -/
def Obligations.ResetMeetsInvariant : Prop := State.reset.Inv

/-- 70_reset_and_hazards.md R222, 10_state.md R35: the host's moves and device power-on keep the invariant. -/
def Obligations.OutsideMovesKeepInvariant : Prop :=
  ∀ s : State, s.Inv → (∀ ws, (s.hostIssue ws).Inv) ∧ s.blockReset.Inv ∧ s.devicePowerOn.Inv

/-- 20_memory.md R57, R65, 70_reset_and_hazards.md R221: a step only appends to the log, at most 16 transactions, and never takes one back. -/
def Obligations.LogOnlyGrows : Prop :=
  ∀ s t : State, step s = .next t → ∃ new : List Event, t.log = s.log ++ new ∧ new.length ≤ 16

/-- 20_memory.md R65, R67: under the oracle `sim` the device after a step is the simulated device run over exactly the transactions the step logged, and every read was answered with the register it held then. -/
def Obligations.SimDeviceFollowsLog : Prop :=
  ∀ s t : State, s.params.oracle = .sim → step s = .next t →
    ∃ new : List Event, t.log = s.log ++ new ∧ t.dev = simReplay s.dev new ∧ simAnswers s.dev new

/-- 20_memory.md R58, R66, 70_reset_and_hazards.md R213: under the oracle `any`, and under any oracle for every command but INIT and SLEEP, the contents of the devices (the driven one's registers, and which other devices are on the bus and what they hold) change nothing but the contents of the devices: the log, STATUS and every field of the block come out the same. Both runs meet the same free draws (log entry 6), whatever these are. -/
def Obligations.DeviceCannotReachBlock : Prop :=
  ∀ (i : Instr) (s : State) (m : Memory) (ds : List BusDevice),
    (s.params.oracle = .any ∨ ((∀ drv addr, i ≠ .init drv addr) ∧ ∀ e, i ≠ .sleep e)) →
    ∃ t u : State, exec i s = .next t ∧ exec i { s with dev := m, others := ds } = .next u ∧
      u = { t with dev := u.dev, others := u.others }

/-- 10_state.md R22: ADDR and the transport's address are written by INIT and by nothing else, and every INIT overwrites them. -/
def Obligations.OnlyInitWritesAddr : Prop :=
  (∀ (i : Instr) (s t : State), (∀ drv addr, i ≠ .init drv addr) → exec i s = .next t →
      t.addr = s.addr ∧ t.busAddr = s.busAddr) ∧
  (∀ (drv : Byte) (addr : BusAddr) (s : State), ∃ t, exec (.init drv addr) s = .next t ∧
      t.addr = some addr ∧ t.busAddr = some addr ∧ t.log[s.log.length]? = some (.A addr))

/-- 20_memory.md R53, R61: the start addresses and widths of the transactions a command issues are the listed ones and no other, and each listed start address is issued by some command. -/
def Obligations.StartAddressesAndWidths : Prop :=
  (∀ (i : Instr) (s t : State), exec i s = .next t → ∃ new : List Event, t.log = s.log ++ new ∧
    ∀ e ∈ new, match e with
      | .A _ => True
      | .W a bytes => (bytes.length = 1 ∧ (a = 0x00#8 ∨ a = 0x01#8)) ∨
          (bytes.length = 4 ∧ (a = 0xFA#8 ∨ ∃ c : Chan, a = led c))
      | .R a n bytes => a = 0x00#8 ∧ n = 1 ∧ bytes.length = 1) ∧
  (∀ (a : RegAddr) (s : State), s.cfg = true → (a = 0x00#8 ∨ a = 0x01#8 ∨ a = 0xFA#8 ∨ ∃ c : Chan, a = led c) →
    ∃ (i : Instr) (t : State) (new : List Event) (bytes : List Byte),
      exec i s = .next t ∧ t.log = s.log ++ new ∧ Event.W a bytes ∈ new)

/-! ### The brightness encoder -/

/-- 42_brightness.md R150, R152: the four bytes SETBR writes are those of Enc(b, c), the four SETBRALL writes are those of EncAll(b), and EncAll(b) = Enc(b, 0) with on-time 0 and off-time and duty 16*b. -/
def Obligations.EncoderBytes : Prop :=
  (∀ (b : Byte) (c : Chan) (s : State), s.cfg = true → ∃ (t : State) (x0 x1 x2 x3 : Byte),
      exec (.setbr b c) s = .next t ∧ t.log = s.log ++ [.W (led c) [x0, x1, x2, x3]] ∧
      enc b c = { onL := x0, onH := x1, offL := x2, offH := x3 } ∧
      x0 = 0x00#8 ∧ x1.toNat = c.toNat ∧ x2.toNat = b.toNat % 16 * 16 ∧
      x3.toNat = (c.toNat + b.toNat / 16) % 16) ∧
  (∀ (b : Byte) (s : State), s.cfg = true → ∃ (t : State) (x0 x1 x2 x3 : Byte),
      exec (.setbrall b) s = .next t ∧ t.log = s.log ++ [.W 0xFA#8 [x0, x1, x2, x3]] ∧
      encAll b = { onL := x0, onH := x1, offL := x2, offH := x3 } ∧
      x0 = 0x00#8 ∧ x1 = 0x00#8 ∧ x2.toNat = b.toNat % 16 * 16 ∧ x3.toNat = b.toNat / 16) ∧
  (∀ b : Byte, encAll b = enc b 0#4 ∧ on12 (encAll b) = 0 ∧ off12 (encAll b) = 16 * b.toNat ∧
      duty (encAll b) = 16 * b.toNat)

/-- 42_brightness.md R151: the block SETBR writes has on-time 256*c, off-time (256*c + 16*b) mod 4096 and duty 16*b, and the off-time wraps exactly when c + (b >> 4) reaches 16. -/
def Obligations.EncoderDuty : Prop :=
  ∀ (b : Byte) (c : Chan) (s : State), s.cfg = true → ∃ (t : State) (blk : ChannelBlock),
    exec (.setbr b c) s = .next t ∧ t.log = s.log ++ [.W (led c) (blockBytes blk)] ∧ blk = enc b c ∧
    on12 blk = 256 * c.toNat ∧ off12 blk = (256 * c.toNat + 16 * b.toNat) % 4096 ∧ duty blk = 16 * b.toNat ∧
    (4096 ≤ 256 * c.toNat + 16 * b.toNat ↔ 16 ≤ c.toNat + (b >>> 4).toNat)

/-- 42_brightness.md R159: no encoded block sets a full flag or a bit 7:5 of a high byte, its OFF_L has bits 3:0 = 0, and no 4-byte block any command writes has both full flags set. -/
def Obligations.NoBothFullFlags : Prop :=
  (∀ (b : Byte) (c : Chan) (blk : ChannelBlock), blk = enc b c ∨ blk = encAll b →
      blk.onL = 0x00#8 ∧ blk.onH.toNat ≤ 0x0F ∧ blk.offH.toNat ≤ 0x0F ∧ fullOn blk = false ∧ fullOff blk = false ∧
        blk.onH.extractLsb' 5 3 = 0#3 ∧ blk.offH.extractLsb' 5 3 = 0#3 ∧ blk.offL.extractLsb' 0 4 = 0#4) ∧
  (∀ (i : Instr) (s t : State) (new : List Event) (a : RegAddr) (b0 b1 b2 b3 : Byte),
      exec i s = .next t → t.log = s.log ++ new → Event.W a [b0, b1, b2, b3] ∈ new →
        ¬ (b1.getLsbD 4 = true ∧ b3.getLsbD 4 = true))

/-! ### Each command: it completes, with this next state, and changes nothing else. exec does not look at FLT (log entry 21): what a faulted block does is said of step. -/

/-- 40_mode.md R110, R114: INIT completes in every state. On the simulated device MODE1 and MODE2 are written and no other register. The device clause is about the simulated device alone (20_memory.md R67): under the oracle `any` a claim can speak only of LOG and STATUS (70_reset_and_hazards.md R213). exec does not look at FLT (log entry 21); a faulted block takes no command. -/
def Obligations.InitCompletes : Prop :=
  ∀ (drv : Byte) (addr : BusAddr) (s : State), ∃ (v : Byte) (t : State),
    exec (.init drv addr) s = .next t ∧
    t.log = s.log ++ [.A addr, .W 0x01#8 [drv &&& 0x17#8], .W 0x00#8 [0x21#8], .R 0x00#8 1 [v]] ∧
    t.addr = some addr ∧ t.busAddr = some addr ∧ t.ok = decide (v = 0x21#8) ∧ t.cfg = true ∧ t.cp = s.cp + 1 ∧
    t.flt = s.flt ∧ t.fcode = s.fcode ∧ t.stream = s.stream ∧ t.params = s.params ∧ t.seq = [] ∧ t.latch = 0x00#8 ∧
    (Memory.wf s.dev = true → s.params.oracle = .sim → v = 0x21#8) ∧
    (Memory.wf s.dev = true → s.params.oracle = .sim → ∀ x : RegAddr, Memory.read t.dev x =
        if x = 0x00#8 then 0x21#8 else if x = 0x01#8 then drv &&& 0x17#8 else Memory.read s.dev x)

/-- 40_mode.md R112: SLEEP completes when CFG = 1. It logs a read of v and the write of w, w[4] = E and every other bit as read; on the simulated device v is MODE1, w replaces it and no other register changes. -/
def Obligations.SleepCompletes : Prop :=
  ∀ (e : Bool) (s : State), s.cfg = true → ∃ (v w : Byte) (t : State),
    exec (.sleep e) s = .next t ∧
    t.log = s.log ++ [.R 0x00#8 1 [v], .W 0x00#8 [w]] ∧
    w.getLsbD 4 = e ∧ (∀ i, i ≠ 4 → w.getLsbD i = v.getLsbD i) ∧
    t.cp = s.cp + 1 ∧ CommandFrame s t ∧
    (Memory.wf s.dev = true → s.params.oracle = .sim →
      v = Memory.read s.dev 0x00#8 ∧
      ∀ x : RegAddr, Memory.read t.dev x = if x = 0x00#8 then w else Memory.read s.dev x)

/-- 41_switch.md R131: ALLON completes when CFG = 1, with one write to ALL_LED. On the simulated device the ALL_LED registers hold its bytes too (20_memory.md R67). The device clause is about the simulated device alone (20_memory.md R67): under the oracle `any` a claim can speak only of LOG and STATUS (70_reset_and_hazards.md R213). -/
def Obligations.AllonCompletes : Prop :=
  ∀ s : State, s.cfg = true → ∃ t : State,
    exec .allon s = .next t ∧ t.log = s.log ++ [.W 0xFA#8 [0x00#8, 0x10#8, 0x00#8, 0x00#8]] ∧
    t.cp = s.cp + 1 ∧ CommandFrame s t ∧
    (Memory.wf s.dev = true → s.params.oracle = .sim →
      AllLedWritten s.dev t.dev { onL := 0x00#8, onH := 0x10#8, offL := 0x00#8, offH := 0x00#8 }) ∧
    (Memory.wf s.dev = true → s.params.oracle = .sim → AliasHolds t.dev { onL := 0x00#8, onH := 0x10#8, offL := 0x00#8, offH := 0x00#8 })

/-- 41_switch.md R132: ALLOFF completes when CFG = 1, with one write to ALL_LED. On the simulated device the ALL_LED registers hold its bytes too (20_memory.md R67). The device clause is about the simulated device alone (20_memory.md R67): under the oracle `any` a claim can speak only of LOG and STATUS (70_reset_and_hazards.md R213). -/
def Obligations.AlloffCompletes : Prop :=
  ∀ s : State, s.cfg = true → ∃ t : State,
    exec .alloff s = .next t ∧ t.log = s.log ++ [.W 0xFA#8 [0x00#8, 0x00#8, 0x00#8, 0x10#8]] ∧
    t.cp = s.cp + 1 ∧ CommandFrame s t ∧
    (Memory.wf s.dev = true → s.params.oracle = .sim →
      AllLedWritten s.dev t.dev { onL := 0x00#8, onH := 0x00#8, offL := 0x00#8, offH := 0x10#8 }) ∧
    (Memory.wf s.dev = true → s.params.oracle = .sim → AliasHolds t.dev { onL := 0x00#8, onH := 0x00#8, offL := 0x00#8, offH := 0x10#8 })

/-- 41_switch.md R133: SETBITS completes when CFG = 1, with one write per channel in the order 0 to 15, full-on where the mask bit is 1 and full-off where it is 0. The device clause is about the simulated device alone (20_memory.md R67): under the oracle `any` a claim can speak only of LOG and STATUS (70_reset_and_hazards.md R213). -/
def Obligations.SetbitsCompletes : Prop :=
  ∀ (mask : BitVec 16) (s : State), s.cfg = true → ∃ t : State,
    exec (.setbits mask) s = .next t ∧
    t.log = s.log ++ allChannels.map (fun c => Event.W (led c)
      (if mask.getLsbD c.toNat then [0x00#8, 0x10#8, 0x00#8, 0x00#8] else [0x00#8, 0x00#8, 0x00#8, 0x10#8])) ∧
    t.cp = s.cp + 1 ∧ CommandFrame s t ∧
    (Memory.wf s.dev = true → s.params.oracle = .sim →
      ChannelsWritten s.dev t.dev allChannels (fun c => if mask.getLsbD c.toNat then onBlk else offBlk))

/-- 41_switch.md R134: SETONMASK completes when CFG = 1, with one full-on write per set mask bit in increasing channel order; the other channels are not written, and a zero mask writes nothing. The device clause is about the simulated device alone (20_memory.md R67): under the oracle `any` a claim can speak only of LOG and STATUS (70_reset_and_hazards.md R213). -/
def Obligations.SetonmaskCompletes : Prop :=
  ∀ (mask : BitVec 16) (s : State), s.cfg = true → ∃ t : State,
    exec (.setonmask mask) s = .next t ∧
    t.log = s.log ++ (allChannels.filter (fun c => mask.getLsbD c.toNat)).map
      (fun c => Event.W (led c) [0x00#8, 0x10#8, 0x00#8, 0x00#8]) ∧
    t.cp = s.cp + 1 ∧ CommandFrame s t ∧
    (Memory.wf s.dev = true → s.params.oracle = .sim →
      ChannelsWritten s.dev t.dev (allChannels.filter (fun c => mask.getLsbD c.toNat)) (fun _ => onBlk))

/-- 41_switch.md R135: SETOFFMASK completes when CFG = 1, with one full-off write per set mask bit in increasing channel order. The device clause is about the simulated device alone (20_memory.md R67): under the oracle `any` a claim can speak only of LOG and STATUS (70_reset_and_hazards.md R213). -/
def Obligations.SetoffmaskCompletes : Prop :=
  ∀ (mask : BitVec 16) (s : State), s.cfg = true → ∃ t : State,
    exec (.setoffmask mask) s = .next t ∧
    t.log = s.log ++ (allChannels.filter (fun c => mask.getLsbD c.toNat)).map
      (fun c => Event.W (led c) [0x00#8, 0x00#8, 0x00#8, 0x10#8]) ∧
    t.cp = s.cp + 1 ∧ CommandFrame s t ∧
    (Memory.wf s.dev = true → s.params.oracle = .sim →
      ChannelsWritten s.dev t.dev (allChannels.filter (fun c => mask.getLsbD c.toNat)) (fun _ => offBlk))

/-- 42_brightness.md R153: SETBR completes when CFG = 1, with one write of the encoded block to its channel. The device clause is about the simulated device alone (20_memory.md R67): under the oracle `any` a claim can speak only of LOG and STATUS (70_reset_and_hazards.md R213). -/
def Obligations.SetbrCompletes : Prop :=
  ∀ (br : Byte) (ch : Chan) (s : State), s.cfg = true → ∃ t : State,
    exec (.setbr br ch) s = .next t ∧ t.log = s.log ++ [.W (led ch) (blockBytes (enc br ch))] ∧
    t.cp = s.cp + 1 ∧ CommandFrame s t ∧
    (Memory.wf s.dev = true → s.params.oracle = .sim → ChannelsWritten s.dev t.dev [ch] (fun c => enc br c))

/-- 42_brightness.md R154: SETBRALL completes when CFG = 1, with one write of the all-channel block to ALL_LED. On the simulated device the ALL_LED registers hold its bytes too (20_memory.md R67). The device clause is about the simulated device alone (20_memory.md R67): under the oracle `any` a claim can speak only of LOG and STATUS (70_reset_and_hazards.md R213). -/
def Obligations.SetbrallCompletes : Prop :=
  ∀ (br : Byte) (s : State), s.cfg = true → ∃ t : State,
    exec (.setbrall br) s = .next t ∧ t.log = s.log ++ [.W 0xFA#8 (blockBytes (encAll br))] ∧
    t.cp = s.cp + 1 ∧ CommandFrame s t ∧
    (Memory.wf s.dev = true → s.params.oracle = .sim → AllLedWritten s.dev t.dev (encAll br)) ∧
    (Memory.wf s.dev = true → s.params.oracle = .sim → AliasHolds t.dev (encAll br))

/-- 42_brightness.md R155: SETBRS completes when CFG = 1 and COUNT is 1 to 16, with one SETBR-like write per channel of its window, in both window modes; channel i takes BRV[i] under BR_INDEX = absolute and BRV[(i - FIRST) mod 16] under relative. The device clause is about the simulated device alone (20_memory.md R67): under the oracle `any` a claim can speak only of LOG and STATUS (70_reset_and_hazards.md R213). -/
def Obligations.SetbrsCompletes : Prop :=
  ∀ (first : Chan) (count : BitVec 5) (p : Payload) (s : State), s.cfg = true →
    1 ≤ count.toNat → count.toNat ≤ 16 → ∃ t : State,
    exec (.setbrs first count p) s = .next t ∧
    t.log = s.log ++ (windowChannels s.params.windowMode first count).map
      (fun c => Event.W (led c) (blockBytes (enc (windowValue s.params.brIndex first p c) c))) ∧
    t.cp = s.cp + 5 ∧ CommandFrame s t ∧
    (Memory.wf s.dev = true → s.params.oracle = .sim →
      ChannelsWritten s.dev t.dev (windowChannels s.params.windowMode first count)
        (fun c => enc (windowValue s.params.brIndex first p c) c)) ∧
    (s.params.brIndex = .absolute → ∀ c : Chan, windowValue s.params.brIndex first p c = brv p c) ∧
    (s.params.brIndex = .relative → ∀ c : Chan, windowValue s.params.brIndex first p c =
      brv p (BitVec.ofNat 4 ((c.toNat + 16 - first.toNat) % 16)))

/-- 42_brightness.md R158: SETRGB completes when CFG = 1 and GROUP is 0 to 4, with three writes in channel order 3*GROUP, 3*GROUP+1, 3*GROUP+2; channel 15 is never written. The device clause is about the simulated device alone (20_memory.md R67): under the oracle `any` a claim can speak only of LOG and STATUS (70_reset_and_hazards.md R213). -/
def Obligations.SetrgbCompletes : Prop :=
  ∀ (v0 v1 v2 : Byte) (group : BitVec 3) (s : State), s.cfg = true → group.toNat ≤ 4 →
    ∃ (c0 c1 c2 : Chan) (t : State),
    c0.toNat = 3 * group.toNat ∧ c1.toNat = 3 * group.toNat + 1 ∧ c2.toNat = 3 * group.toNat + 2 ∧ c2.toNat ≤ 14 ∧
    exec (.setrgb v0 v1 v2 group) s = .next t ∧
    t.log = s.log ++ [.W (led c0) (blockBytes (enc v0 c0)), .W (led c1) (blockBytes (enc v1 c1)),
      .W (led c2) (blockBytes (enc v2 c2))] ∧
    t.cp = s.cp + 1 ∧ CommandFrame s t ∧
    (Memory.wf s.dev = true → s.params.oracle = .sim →
      ChannelsWritten s.dev t.dev [c0, c1, c2]
        (fun c => if c = c0 then enc v0 c else if c = c1 then enc v1 c else enc v2 c))

/-- 70_reset_and_hazards.md R211, 60_exceptions.md R181 code 5: before INIT every other command with legal operands enters the fault NOT_INITIALIZED, and nothing else changes. -/
def Obligations.NotInitializedFaults : Prop :=
  ∀ (i : Instr) (s : State), s.cfg = false → i.wellFormed = true → (∀ drv addr, i ≠ .init drv addr) →
    exec i s = .next { s with flt := true, fcode := 5#4 }

/-- 30_encoding.md R94(c), 60_exceptions.md R182: SETBRS with COUNT 0 or above 16 and SETRGB with GROUP above 4 enter the fault ILLEGAL_OPERAND, also before INIT, and nothing else changes. -/
def Obligations.IllegalOperandFaults : Prop :=
  (∀ (first : Chan) (count : BitVec 5) (p : Payload) (s : State), (count.toNat = 0 ∨ 17 ≤ count.toNat) →
      exec (.setbrs first count p) s = .next { s with flt := true, fcode := 4#4 }) ∧
  (∀ (v0 v1 v2 : Byte) (group : BitVec 3) (s : State), 5 ≤ group.toNat →
      exec (.setrgb v0 v1 v2 group) s = .next { s with flt := true, fcode := 4#4 })

/-! ### Windows, groups and counts -/

/-- 42_brightness.md R156: under WINDOW_MODE = faithful a window that does not wrap writes its first COUNT - 1 channels, one that wraps writes nothing, and channel 15 is never written. -/
def Obligations.FaithfulWindow : Prop :=
  ∀ (first : Chan) (count : BitVec 5) (p : Payload) (s : State), s.cfg = true → s.params.windowMode = .faithful →
    1 ≤ count.toNat → count.toNat ≤ 16 → ∃ (t : State) (cs : List Chan),
    exec (.setbrs first count p) s = .next t ∧
    t.log = s.log ++ cs.map
      (fun c => Event.W (led c) (blockBytes (enc (windowValue s.params.brIndex first p c) c))) ∧
    cs.map BitVec.toNat =
      (if first.toNat + count.toNat ≤ 16 then (List.range (count.toNat - 1)).map (fun k => first.toNat + k) else []) ∧
    ∀ c ∈ cs, c.toNat ≤ 14

/-- 42_brightness.md R157: under WINDOW_MODE = corrected exactly COUNT writes, to channels (FIRST + k) mod 16 in order, no channel twice, all sixteen for COUNT = 16; with BR_INDEX = relative the k-th of them takes BRV[k]. -/
def Obligations.CorrectedWindow : Prop :=
  ∀ (first : Chan) (count : BitVec 5) (p : Payload) (s : State), s.cfg = true → s.params.windowMode = .corrected →
    1 ≤ count.toNat → count.toNat ≤ 16 → ∃ (t : State) (cs : List Chan),
    exec (.setbrs first count p) s = .next t ∧
    t.log = s.log ++ cs.map
      (fun c => Event.W (led c) (blockBytes (enc (windowValue s.params.brIndex first p c) c))) ∧
    cs.map BitVec.toNat = (List.range count.toNat).map (fun k => (first.toNat + k) % 16) ∧ cs.Nodup ∧
    (count.toNat = 16 → ∀ c : Chan, c ∈ cs) ∧
    (s.params.brIndex = .relative → cs.map (fun c => windowValue s.params.brIndex first p c) =
      (List.range count.toNat).map (fun k => brv p (BitVec.ofNat 4 k)))

/-- 42_brightness.md R155: SETBRS does to the block (its log and every field but cp) what the SETBR commands of its window, issued one after another, do, and on the simulated device it leaves the same registers. Of the devices' contents under the oracle `any` it says nothing: there a claim can speak only of LOG and STATUS (70_reset_and_hazards.md R213). -/
def Obligations.SetbrsIsSetbrSequence : Prop :=
  ∀ (first : Chan) (count : BitVec 5) (p : Payload) (s : State), s.cfg = true →
    1 ≤ count.toNat → count.toNat ≤ 16 → s.seq = [] → s.latch = 0x00#8 → ∃ t u : State,
    exec (.setbrs first count p) s = .next t ∧
    runSetbr ((windowChannels s.params.windowMode first count).map
      (fun c => (windowValue s.params.brIndex first p c, c))) s = .next u ∧
    t = { u with cp := s.cp + 5, dev := t.dev, others := t.others } ∧
    (s.params.oracle = .sim → t.dev = u.dev ∧ t.others = u.others)

/-- 42_brightness.md R158: SETRGB does to the block (its log and every field but cp) what three SETBR commands do, and on the simulated device it leaves the same registers. Of the devices' contents under the oracle `any` it says nothing: there a claim can speak only of LOG and STATUS (70_reset_and_hazards.md R213). -/
def Obligations.SetrgbIsThreeSetbr : Prop :=
  ∀ (v0 v1 v2 : Byte) (group : BitVec 3) (s : State), s.cfg = true → group.toNat ≤ 4 →
    s.seq = [] → s.latch = 0x00#8 → ∃ t u : State,
    exec (.setrgb v0 v1 v2 group) s = .next t ∧
    runSetbr [(v0, BitVec.ofNat 4 (3 * group.toNat)), (v1, BitVec.ofNat 4 (3 * group.toNat + 1)),
      (v2, BitVec.ofNat 4 (3 * group.toNat + 2))] s = .next u ∧
    t = { u with cp := s.cp + 1, dev := t.dev, others := t.others } ∧
    (s.params.oracle = .sim → t.dev = u.dev ∧ t.others = u.others)

/-- 41_switch.md R136: ALLON and ALLOFF issue one write, SETBITS sixteen, SETONMASK and SETOFFMASK one per set mask bit; the per-channel commands write only at LED(0..15), the alias commands only at 0xFA. -/
def Obligations.SwitchTransactionCounts : Prop :=
  ∀ (mask : BitVec 16) (s : State), s.cfg = true →
    ∃ (t1 t2 t3 t4 t5 : State) (n1 n2 n3 n4 n5 : List Event),
      exec .allon s = .next t1 ∧ exec .alloff s = .next t2 ∧ exec (.setbits mask) s = .next t3 ∧
      exec (.setonmask mask) s = .next t4 ∧ exec (.setoffmask mask) s = .next t5 ∧
      t1.log = s.log ++ n1 ∧ t2.log = s.log ++ n2 ∧ t3.log = s.log ++ n3 ∧ t4.log = s.log ++ n4 ∧
      t5.log = s.log ++ n5 ∧
      n1.length = 1 ∧ n2.length = 1 ∧ n3.length = 16 ∧
      n4.length = (List.range 16).countP (fun i => mask.getLsbD i) ∧
      n5.length = (List.range 16).countP (fun i => mask.getLsbD i) ∧
      (∀ e ∈ n1 ++ n2, ∃ bytes, e = Event.W 0xFA#8 bytes) ∧
      (∀ e ∈ n3 ++ n4 ++ n5, ∃ (c : Chan) (bytes : List Byte), e = Event.W (led c) bytes)

/-! ### MODE1 -/

/-- 40_mode.md R113: on the simulated device SLEEP 1 then SLEEP 0 write m with bit 4 set, then m with bit 4 clear; every other bit is restored, and the whole byte exactly when bit 4 was 0, as it is after a successful INIT. -/
def Obligations.SleepRoundTrip : Prop :=
  (∀ s : State, s.cfg = true → s.params.oracle = .sim → Memory.wf s.dev = true → ∃ t u : State,
    exec (.sleep true) s = .next t ∧ exec (.sleep false) t = .next u ∧
    Memory.read t.dev 0x00#8 = Memory.read s.dev 0x00#8 ||| 0x10#8 ∧
    Memory.read u.dev 0x00#8 = Memory.read s.dev 0x00#8 &&& 0xEF#8 ∧
    (∀ i, i ≠ 4 → (Memory.read u.dev 0x00#8).getLsbD i = (Memory.read s.dev 0x00#8).getLsbD i) ∧
    (Memory.read u.dev 0x00#8).getLsbD 4 = false ∧
    (Memory.read u.dev 0x00#8 = Memory.read s.dev 0x00#8 ↔ (Memory.read s.dev 0x00#8).getLsbD 4 = false)) ∧
  (∀ (drv : Byte) (addr : BusAddr) (s t : State), s.params.oracle = .sim → Memory.wf s.dev = true →
    exec (.init drv addr) s = .next t → t.ok = true → (Memory.read t.dev 0x00#8).getLsbD 4 = false)

/-- 40_mode.md R111: INIT reports success exactly when the one byte it read from MODE1 equals 0x21 in all eight bits, whatever DRV is. -/
def Obligations.InitReadBackTest : Prop :=
  ∀ (drv : Byte) (addr : BusAddr) (s : State), ∃ (v : Byte) (t : State), exec (.init drv addr) s = .next t ∧
    t.log.getLast? = some (.R 0x00#8 1 [v]) ∧
    (t.ok = true ↔ ∀ i, i < 8 → v.getLsbD i = (0x20#8 ||| 0x01#8).getLsbD i)

/-- 20_memory.md R64, 70_reset_and_hazards.md R214: on the simulated device INIT leaves MODE1.AI = 1, and no step of the block clears it. -/
def Obligations.AutoIncrementKept : Prop :=
  (∀ (drv : Byte) (addr : BusAddr) (s : State), s.params.oracle = .sim → Memory.wf s.dev = true →
    ∃ t, exec (.init drv addr) s = .next t ∧ (Memory.read t.dev 0x00#8).getLsbD 5 = true) ∧
  (∀ s t : State, s.params.oracle = .sim → Memory.wf s.dev = true → (Memory.read s.dev 0x00#8).getLsbD 5 = true →
    step s = .next t → (Memory.read t.dev 0x00#8).getLsbD 5 = true)

/-! ### The assembler -/

/-- 30_encoding.md R95: a line assembles exactly when its operands are in the ranges of the rule's table, and to a command with legal operands. -/
def Obligations.AssemblerRanges : Prop :=
  (∀ drv addr, (assemble (.init drv addr)).isSome = true ↔ drv ≤ 255 ∧ addr ≤ 127) ∧
  (∀ e, (assemble (.sleep e)).isSome = true ↔ e = 0 ∨ e = 1) ∧
  assemble .allon = some .allon ∧ assemble .alloff = some .alloff ∧
  (∀ m, (assemble (.setbits m)).isSome = true ↔ m ≤ 0xFFFF) ∧
  (∀ m, (assemble (.setonmask m)).isSome = true ↔ m ≤ 0xFFFF) ∧
  (∀ m, (assemble (.setoffmask m)).isSome = true ↔ m ≤ 0xFFFF) ∧
  (∀ br ch, (assemble (.setbr br ch)).isSome = true ↔ br ≤ 255 ∧ ch ≤ 15) ∧
  (∀ br, (assemble (.setbrall br)).isSome = true ↔ br ≤ 255) ∧
  (∀ first count values, (assemble (.setbrs first count values)).isSome = true ↔
    first ≤ 15 ∧ 1 ≤ count ∧ count ≤ 16 ∧ values.length = 16 ∧ ∀ v ∈ values, v ≤ 255) ∧
  (∀ v0 v1 v2 group, (assemble (.setrgb v0 v1 v2 group)).isSome = true ↔
    v0 ≤ 255 ∧ v1 ≤ 255 ∧ v2 ≤ 255 ∧ group ≤ 4) ∧
  (∀ line i, assemble line = some i → i.wellFormed = true)

/-- 30_encoding.md R95, R89: the command a line assembles to carries the operands as written, and SETBRS's sixteen bytes are BRV[0] to BRV[15]. -/
def Obligations.AssemblerOperands : Prop :=
  (∀ drv addr i, assemble (.init drv addr) = some i →
    ∃ d a, i = .init d a ∧ d.toNat = drv ∧ a.toNat = addr) ∧
  (∀ e i, assemble (.sleep e) = some i → i = .sleep (decide (e = 1))) ∧
  (∀ m i, assemble (.setbits m) = some i → ∃ k, i = .setbits k ∧ k.toNat = m) ∧
  (∀ m i, assemble (.setonmask m) = some i → ∃ k, i = .setonmask k ∧ k.toNat = m) ∧
  (∀ m i, assemble (.setoffmask m) = some i → ∃ k, i = .setoffmask k ∧ k.toNat = m) ∧
  (∀ br ch i, assemble (.setbr br ch) = some i → ∃ b c, i = .setbr b c ∧ b.toNat = br ∧ c.toNat = ch) ∧
  (∀ br i, assemble (.setbrall br) = some i → ∃ b, i = .setbrall b ∧ b.toNat = br) ∧
  (∀ first count values i, assemble (.setbrs first count values) = some i →
    ∃ f n p, i = .setbrs f n p ∧ f.toNat = first ∧ n.toNat = count ∧
      ∀ j, j < 16 → values[j]? = some (brv p (BitVec.ofNat 4 j)).toNat) ∧
  (∀ v0 v1 v2 group i, assemble (.setrgb v0 v1 v2 group) = some i →
    ∃ a b c g, i = .setrgb a b c g ∧ a.toNat = v0 ∧ b.toNat = v1 ∧ c.toNat = v2 ∧ g.toNat = group)

/-- 30_encoding.md R96: the symbols and the expansions of the pseudo-instructions; ALLON is one write to ALL_LED and SETBITS 0xFFFF sixteen writes to LED(0) to LED(15), so they are not equivalent. -/
def Obligations.AssemblerExpansions : Prop :=
  drvPmos = 0x15 ∧ drvNmos = 0x04 ∧ drvDirect = 0x13 ∧ addrAllcall = 0x70 ∧
  (∀ drv, assemble (.initDefault drv) = assemble (.init drv 0x70)) ∧
  assemble .wake = assemble (.sleep 0) ∧ assemble .sleepOn = assemble (.sleep 1) ∧
  (∀ ch, ch ≤ 15 → assemble (.ledOn ch) = assemble (.setonmask (1 <<< ch)) ∧
    assemble (.ledOff ch) = assemble (.setoffmask (1 <<< ch))) ∧
  (∀ s : State, s.cfg = true → ∃ t u : State, exec .allon s = .next t ∧ exec (.setbits 0xFFFF#16) s = .next u ∧
    t.log = s.log ++ [.W 0xFA#8 [0x00#8, 0x10#8, 0x00#8, 0x00#8]] ∧
    u.log = s.log ++ allChannels.map (fun c => Event.W (led c) [0x00#8, 0x10#8, 0x00#8, 0x00#8]) ∧
    (allChannels.map led).length = 16 ∧ t.log ≠ u.log)

/-! ### The host and the bus -/

/-- 70_reset_and_hazards.md R222, R210: a command the host issues to an unfaulted block that has completed every earlier one is the next command run, and issuing changes the stream alone; the move has no step while the block is faulted, while an earlier command is pending, or for words that are not one command. A SETBRS sent without all its payload faults with TRUNCATED (30_encoding.md R93); that the host's move accepts such words at all, against its duty to send complete commands, is the model's choice (log entry 4). After a block reset (which empties the stream, log entry 16) and at State.reset the first command run is the first the host issues, at cp = 0. -/
def Obligations.IssuedCommandIsRun : Prop :=
  (∀ (s : State) (ws : List Word32) (i : Instr), s.flt = false → s.cp = s.stream.length →
    decode ws = .ok i → ws.length = instrWords i →
    s.hostIssue ws = { s with stream := s.stream ++ ws } ∧ step (s.hostIssue ws) = exec i (s.hostIssue ws)) ∧
  (∀ (s : State) (h : Word32) (rest : List Word32), s.flt = false → s.cp = s.stream.length →
    h.extractLsb' 0 4 = 0xA#4 → rest.length < 4 →
    step (s.hostIssue (h :: rest)) = .next ((s.hostIssue (h :: rest)).raiseFault .truncated)) ∧
  (∀ (s : State) (ws : List Word32), s.flt = true ∨ s.pendingWords ≠ [] → s.hostIssue ws = s) ∧
  (∀ (s : State) (ws : List Word32),
    (ws = [] ∨ ∃ (h : Word32) (rest : List Word32), ws = h :: rest ∧
      (if h.extractLsb' 0 4 = 0xA#4 then 4 else 0) < rest.length) → s.hostIssue ws = s) ∧
  (∀ (s : State) (ws : List Word32) (i : Instr), s = State.reset ∨ (∃ u : State, s = u.blockReset) →
    decode ws = .ok i → ws.length = instrWords i →
    s.cp = 0 ∧ (s.hostIssue ws).stream = ws ∧ step (s.hostIssue ws) = exec i (s.hostIssue ws))

/-- 60_exceptions.md R188, 20_memory.md R67: no step of the block adds or takes away a device on the bus or changes a device's own address, and on the simulated bus, where one device answers, it leaves every other device as it was. -/
def Obligations.OtherDevicesKept : Prop :=
  ∀ s t : State, step s = .next t →
    t.others.map BusDevice.addr = s.others.map BusDevice.addr ∧ (s.params.oracle = .sim → t.others = s.others)
end

