-- ==== Sys2Proof/Laws/Memory.lean ====
section
/-! SUPPORT. The laws of the register file: every operation keeps the canonical form, a read after a write, and what landing bytes leave in each register. -/

namespace Sys2Proof.Machine

theorem Memory.wfFrom_mono {lo lo' : Nat} (h : lo' ≤ lo) {m : Memory} (hm : Memory.wfFrom lo m = true) :
    Memory.wfFrom lo' m = true := by
  cases m with
  | nil => rfl
  | cons c rest =>
    simp only [Memory.wfFrom, Bool.and_eq_true, decide_eq_true_eq] at hm ⊢
    exact ⟨⟨⟨by omega, hm.1.1.2⟩, hm.1.2⟩, hm.2⟩

/-- A key below the first one listed reads as unlisted. -/
theorem Memory.lookup_of_lt {lo k : Nat} {m : Memory} (hm : Memory.wfFrom lo m = true) (hk : k < lo) :
    Memory.lookup m k = Memory.unlisted := by
  induction m generalizing lo with
  | nil => rfl
  | cons c rest ih =>
    simp only [Memory.wfFrom, Bool.and_eq_true, decide_eq_true_eq] at hm
    rw [Memory.lookup, if_neg (by omega)]
    exact ih hm.2 (by omega)

theorem Memory.push_wfFrom {lo k : Nat} {b : Byte} {m : Memory} (hlo : lo ≤ k) (hk : k < 256)
    (hm : Memory.wfFrom (k + 1) m = true) : Memory.wfFrom lo (Memory.push k b m) = true := by
  unfold Memory.push
  split
  · exact Memory.wfFrom_mono (by omega) hm
  · simp [Memory.wfFrom, *]

theorem Memory.store_wfFrom {lo k : Nat} {m : Memory} (b : Byte) (hlo : lo ≤ k) (hk : k < 256)
    (hm : Memory.wfFrom lo m = true) : Memory.wfFrom lo (Memory.store m k b) = true := by
  induction m generalizing lo with
  | nil => exact Memory.push_wfFrom hlo hk rfl
  | cons c rest ih =>
    have hc := hm
    simp only [Memory.wfFrom, Bool.and_eq_true, decide_eq_true_eq] at hc
    unfold Memory.store
    split
    · refine Memory.push_wfFrom hlo hk ?_
      simp only [Memory.wfFrom, Bool.and_eq_true, decide_eq_true_eq]
      exact ⟨⟨⟨by omega, hc.1.1.2⟩, hc.1.2⟩, hc.2⟩
    · split
      · exact Memory.push_wfFrom hlo hk (by subst k; exact hc.2)
      · simp only [Memory.wfFrom, Bool.and_eq_true, decide_eq_true_eq]
        exact ⟨hc.1, ih (by omega) hc.2⟩

/-- A write keeps the canonical form. -/
theorem Memory.write_wf {m : Memory} (a : RegAddr) (b : Byte) (hm : Memory.wf m = true) :
    Memory.wf (Memory.write m a b) = true :=
  Memory.store_wfFrom b (Nat.zero_le _) a.isLt hm

theorem Memory.fill_wf (f : RegAddr → Byte) {n : Nat} (hn : n ≤ 256) : Memory.wf (Memory.fill f n) = true := by
  induction n with
  | zero => rfl
  | succ k ih => exact Memory.store_wfFrom _ (Nat.zero_le _) (by omega) (ih (by omega))

/-- A register file given by its contents is in canonical form. -/
theorem Memory.ofFun_wf (f : RegAddr → Byte) : Memory.wf (Memory.ofFun f) = true := by
  unfold Memory.ofFun
  exact Memory.fill_wf f (Nat.le_refl _)

theorem Memory.lookup_push {k j : Nat} {b : Byte} {m : Memory} (hm : Memory.wfFrom (k + 1) m = true) :
    Memory.lookup (Memory.push k b m) j = if k = j then b else Memory.lookup m j := by
  unfold Memory.push
  split
  · split
    · subst j; simp [*, Memory.lookup_of_lt hm (Nat.lt_succ_self k)]
    · rfl
  · rfl

theorem Memory.lookup_store {lo k j : Nat} {b : Byte} {m : Memory} (hm : Memory.wfFrom lo m = true) :
    Memory.lookup (Memory.store m k b) j = if k = j then b else Memory.lookup m j := by
  induction m generalizing lo with
  | nil => exact Memory.lookup_push rfl
  | cons c rest ih =>
    simp only [Memory.wfFrom, Bool.and_eq_true, decide_eq_true_eq] at hm
    unfold Memory.store
    split
    · refine Memory.lookup_push ?_
      simp only [Memory.wfFrom, Bool.and_eq_true, decide_eq_true_eq]
      exact ⟨⟨⟨by omega, hm.1.1.2⟩, hm.1.2⟩, hm.2⟩
    · split
      · rw [Memory.lookup_push (by subst k; exact hm.2)]
        split
        · rfl
        · rw [Memory.lookup, if_neg (by omega)]
      · rw [Memory.lookup, ih hm.2, Memory.lookup]
        split
        · rw [if_neg (by omega)]
        · rfl

/-- A read after a write: the byte written at its address, what was there anywhere else. -/
theorem Memory.read_write {m : Memory} (hm : Memory.wf m = true) (a x : RegAddr) (b : Byte) :
    Memory.read (Memory.write m a b) x = if a = x then b else Memory.read m x := by
  unfold Memory.read Memory.write
  rw [Memory.lookup_store hm]
  simp only [BitVec.toNat_inj]

theorem Memory.lookup_fill (f : RegAddr → Byte) {n : Nat} (hn : n ≤ 256) (j : Nat) :
    Memory.lookup (Memory.fill f n) j = if j < n then f (BitVec.ofNat 8 j) else Memory.unlisted := by
  induction n with
  | zero => rfl
  | succ k ih =>
    rw [Memory.fill, Memory.lookup_store (Memory.fill_wf f (by omega)), ih (by omega)]
    by_cases h : k = j
    · subst j; simp
    · rw [if_neg h]; congr 1; simp only [eq_iff_iff]; omega

/-- A register file given by its contents reads back as them. -/
theorem Memory.read_ofFun (f : RegAddr → Byte) (a : RegAddr) : Memory.read (Memory.ofFun f) a = f a := by
  have := a.isLt
  unfold Memory.read Memory.ofFun
  rw [Memory.lookup_fill f (Nat.le_refl _), if_pos this]
  simp

/-! ### What the device's operations keep -/

theorem fanOut_wf (off : Nat) (b : Byte) (cs : List Chan) {m : Memory} (hm : Memory.wf m = true) :
    Memory.wf (fanOut off b cs m) = true := by
  induction cs generalizing m with
  | nil => exact hm
  | cons c rest ih => exact ih (Memory.write_wf _ _ hm)

theorem landByte_wf (own : Byte) (a : RegAddr) (b : Byte) {m : Memory} (hm : Memory.wf m = true) :
    Memory.wf (landByte own a b m) = true := by
  unfold landByte
  split
  · exact Memory.write_wf _ _ hm
  · exact fanOut_wf _ _ _ (Memory.write_wf _ _ hm)

theorem writeMode1_wf (draw : Draw) (b : Byte) {m : Memory} (hm : Memory.wf m = true) :
    Memory.wf (writeMode1 draw b m) = true := by
  unfold writeMode1
  split
  · exact Memory.ofFun_wf _
  · split
    · exact Memory.write_wf _ _ (Memory.ofFun_wf _)
    · exact Memory.write_wf _ _ hm

theorem anyLand_wf (draw : Draw) (a : RegAddr) (b : Byte) {m : Memory} (hm : Memory.wf m = true) :
    Memory.wf (anyLand draw a b m) = true := by
  unfold anyLand
  split
  · exact writeMode1_wf _ _ hm
  · exact landByte_wf _ _ _ hm

theorem landBytes_wf {land : RegAddr → Byte → Memory → Memory}
    (hland : ∀ a b m, Memory.wf m = true → Memory.wf (land a b m) = true)
    (a : RegAddr) (bytes : List Byte) {m : Memory} (hm : Memory.wf m = true) :
    Memory.wf (landBytes land a bytes m) = true := by
  induction bytes generalizing a m with
  | nil => exact hm
  | cons b rest ih => exact ih _ (hland _ _ _ hm)

theorem simWrite_wf (a : RegAddr) (bytes : List Byte) {m : Memory} (hm : Memory.wf m = true) :
    Memory.wf (simWrite a bytes m) = true :=
  landBytes_wf (fun _ _ _ h => landByte_wf _ _ _ h) a bytes hm

theorem landScattered_wf (draw : Draw) (a : RegAddr) (k : Nat) (bytes : List Byte) {m : Memory}
    (hm : Memory.wf m = true) : Memory.wf (landScattered draw a k bytes m) = true := by
  induction bytes generalizing k m with
  | nil => exact hm
  | cons b rest ih =>
    refine ih _ ?_
    split
    · exact hm
    · exact anyLand_wf _ _ _ hm

/-- A write that goes to a device keeps its register file's canonical form. -/
theorem reachedWrite_wf (t : Transport) (cf : Bool) (sel : Option BusAddr) (draw : Draw) (a : RegAddr)
    (bytes : List Byte) {m : Memory} (hm : Memory.wf m = true) :
    Memory.wf (reachedWrite t cf sel draw a bytes m) = true := by
  unfold reachedWrite
  split
  · split
    · unfold deliveredWrite
      split
      · exact anyLand_wf _ _ _ hm
      · split
        · exact landBytes_wf (fun _ _ _ h => anyLand_wf _ _ _ h) _ _ hm
        · exact landScattered_wf _ _ _ _ hm
    · exact Memory.ofFun_wf _
  · exact Memory.ofFun_wf _

/-- A write transaction keeps the driven device's canonical form. -/
theorem deviceWrite_wf (p : Params) (cf : Bool) (sel : Option BusAddr) (draw : Draw) (a : RegAddr)
    (bytes : List Byte) {m : Memory} (hm : Memory.wf m = true) :
    Memory.wf (deviceWrite p cf sel draw a bytes m) = true := by
  unfold deviceWrite
  split
  · exact simWrite_wf _ _ hm
  · exact reachedWrite_wf _ _ _ _ _ _ hm

/-- INIT's verdict keeps a register file's canonical form. -/
theorem confirmedRegs_wf (ok : Bool) (draw : Draw) {m : Memory} (hm : Memory.wf m = true) :
    Memory.wf (confirmedRegs ok draw m) = true := by
  unfold confirmedRegs
  split
  · exact hm
  · exact Memory.ofFun_wf _

theorem deviceConfirm_wf (p : Params) (ok : Bool) (draw : Draw) {m : Memory} (hm : Memory.wf m = true) :
    Memory.wf (deviceConfirm p ok draw m) = true := by
  unfold deviceConfirm
  split
  · exact hm
  · exact confirmedRegs_wf _ _ hm

/-- An update that keeps the canonical form keeps every reached device's. -/
theorem onReached_wf (sel : Option BusAddr) {f : Nat → Memory → Memory}
    (hf : ∀ k m, Memory.wf m = true → Memory.wf (f k m) = true) (k : Nat) (ds : List BusDevice)
    (hd : ∀ d ∈ ds, Memory.wf d.regs = true) : ∀ d ∈ onReached sel f k ds, Memory.wf d.regs = true := by
  induction ds generalizing k with
  | nil => exact hd
  | cons d rest ih =>
    intro x hx
    rcases List.mem_cons.1 hx with rfl | hx
    · split
      · exact hf _ _ (hd d (by simp))
      · exact hd d (by simp)
    · exact ih (k + 1) (fun y hy => hd y (by simp [hy])) x hx

/-- Device j after an update of the reached devices: updated if the transaction goes to it, as it was otherwise. -/
theorem onReached_getElem? (sel : Option BusAddr) (f : Nat → Memory → Memory) (k j : Nat) (ds : List BusDevice) :
    (onReached sel f k ds)[j]? =
      ds[j]?.map fun d => if goesTo sel d then { d with regs := f (k + j) d.regs } else d := by
  induction ds generalizing k j with
  | nil => rfl
  | cons d rest ih =>
    cases j with
    | zero => rfl
    | succ j =>
      rw [onReached, List.getElem?_cons_succ, List.getElem?_cons_succ, ih, Nat.add_assoc, Nat.add_comm 1 j]

theorem onReached_addr (sel : Option BusAddr) (f : Nat → Memory → Memory) (k : Nat) (ds : List BusDevice) :
    (onReached sel f k ds).map BusDevice.addr = ds.map BusDevice.addr := by
  induction ds generalizing k with
  | nil => rfl
  | cons d rest ih =>
    rw [onReached, List.map_cons, List.map_cons, ih]
    split <;> rfl

theorem othersWrite_wf (p : Params) (cf : Bool) (sel : Option BusAddr) (n : Nat) (a : RegAddr) (bytes : List Byte)
    {ds : List BusDevice} (hd : ∀ d ∈ ds, Memory.wf d.regs = true) :
    ∀ d ∈ othersWrite p cf sel n a bytes ds, Memory.wf d.regs = true := by
  unfold othersWrite
  split
  · exact hd
  · exact onReached_wf _ (fun _ _ h => reachedWrite_wf _ _ _ _ _ _ h) _ _ hd

theorem othersConfirm_wf (p : Params) (ok : Bool) (sel : Option BusAddr) (n : Nat) {ds : List BusDevice}
    (hd : ∀ d ∈ ds, Memory.wf d.regs = true) : ∀ d ∈ othersConfirm p ok sel n ds, Memory.wf d.regs = true := by
  unfold othersConfirm
  split
  · exact hd
  · exact onReached_wf _ (fun _ _ h => confirmedRegs_wf _ _ h) _ _ hd

/-- A write to 0x70 over a reliable transport, with OK = 1, is delivered to each other device that answers all-call (70_reset_and_hazards.md R216). -/
theorem othersWrite_allCall {p : Params} (ho : p.oracle = .any) (ht : p.transport = .reliable) (n : Nat) (a : RegAddr)
    (bytes : List Byte) {ds : List BusDevice} {j : Nat} {d : BusDevice} (hj : ds[j]? = some d)
    (hc : answersAllCall (Memory.read d.regs regMode1) = true) :
    (othersWrite p true (some allCallAddr) n a bytes ds)[j]? =
      some { d with regs := deliveredWrite { device := 1 + j, number := n } a bytes d.regs } := by
  simp [othersWrite, ho, onReached_getElem?, hj, goesTo, reachedWrite, ht, allCallOpen, hc]

/-- A write to one device's own address leaves a device with another address as it was (20_memory.md R56). -/
theorem othersWrite_elsewhere (p : Params) (cf : Bool) {sel : Option BusAddr} (n : Nat) (a : RegAddr)
    (bytes : List Byte) {ds : List BusDevice} {j : Nat} {d : BusDevice} (hj : ds[j]? = some d)
    (hg : goesTo sel d = false) : (othersWrite p cf sel n a bytes ds)[j]? = some d := by
  unfold othersWrite
  split
  · exact hj
  · simp [onReached_getElem?, hj, hg]

theorem othersWrite_addr (p : Params) (cf : Bool) (sel : Option BusAddr) (n : Nat) (a : RegAddr) (bytes : List Byte)
    (ds : List BusDevice) : (othersWrite p cf sel n a bytes ds).map BusDevice.addr = ds.map BusDevice.addr := by
  unfold othersWrite
  split
  · rfl
  · exact onReached_addr _ _ _ _

theorem othersConfirm_addr (p : Params) (ok : Bool) (sel : Option BusAddr) (n : Nat) (ds : List BusDevice) :
    (othersConfirm p ok sel n ds).map BusDevice.addr = ds.map BusDevice.addr := by
  unfold othersConfirm
  split
  · rfl
  · exact onReached_addr _ _ _ _

/-- Selecting a device keeps the register file's canonical form. -/
theorem deviceSelect_wf (p : Params) (draw : Draw) (old : Option BusAddr) (d : BusAddr) {m : Memory}
    (hm : Memory.wf m = true) : Memory.wf (deviceSelect p draw old d m) = true := by
  unfold deviceSelect
  split
  · exact hm
  · split
    · exact hm
    · exact Memory.ofFun_wf _

/-! ### What a write leaves in each register -/

theorem led_toNat (c : Chan) : (led c).toNat = 4 * c.toNat + 6 := by
  have := c.isLt
  simp only [led, BitVec.toNat_ofNat]
  omega

theorem mem_allChannels (c : Chan) : c ∈ allChannels := by
  simp only [allChannels, List.mem_map, List.mem_range]
  exact ⟨c.toNat, c.isLt, by simp⟩

/-- Register k of channel c's block, as a number. -/
theorem led_add_toNat (c : Chan) {k : Nat} (hk : k < 4) :
    (led c + BitVec.ofNat 8 k).toNat = 4 * c.toNat + 6 + k := by
  have := c.isLt
  rw [BitVec.toNat_add, led_toNat, BitVec.toNat_ofNat]
  omega

/-- A read after fanning a byte out: the byte at that offset of a listed channel, what was there elsewhere. -/
theorem read_fanOut {off : Nat} (b : Byte) (cs : List Chan) {m : Memory}
    (hm : Memory.wf m = true) (x : RegAddr) :
    Memory.read (fanOut off b cs m) x =
      if ∃ c ∈ cs, led c + BitVec.ofNat 8 off = x then b else Memory.read m x := by
  induction cs generalizing m with
  | nil => simp [fanOut]
  | cons c rest ih =>
    rw [fanOut, ih (Memory.write_wf _ _ hm), Memory.read_write hm]
    by_cases hc : led c + BitVec.ofNat 8 off = x <;> simp [hc]

theorem aliasOffset_none {a : RegAddr} (h : a.toNat < 0xFA) : aliasOffset a = none := by
  unfold aliasOffset
  rw [if_neg (by omega)]

/-- A byte landing outside ALL_LED changes its own register only. -/
theorem landByte_plain (own : Byte) {a : RegAddr} (b : Byte) (m : Memory) (h : a.toNat < 0xFA) :
    landByte own a b m = Memory.write m a b := by
  unfold landByte
  rw [aliasOffset_none h]

end Sys2Proof.Machine
end

