-- ==== Sys2Proof/Laws/Device.lean ====
section
/-! SUPPORT. What a 4-byte write leaves in the device's registers when its contents are those the spec gives: a channel block, a list of channel blocks, the ALL_LED block. -/

namespace Sys2Proof.Machine

/-- A landing that, at every address but MODE1, is the landing of 20_memory.md R63 and R67. -/
def PlainLanding (land : RegAddr → Byte → Memory → Memory) : Prop :=
  ∀ a b m, a ≠ regMode1 → ∃ own, land a b m = landByte own a b m

theorem simLand_plain : PlainLanding simLand := fun _ b _ _ => ⟨b, rfl⟩

theorem anyLand_plain (draw : Draw) : PlainLanding (anyLand draw) := fun a b m h =>
  ⟨Config.freeRegs draw a, by simp [anyLand, h]⟩

/-- A delivered 4-byte write lands its bytes in order while MODE1.AI = 1 (20_memory.md R64). -/
theorem deliveredWrite_block (draw : Draw) (a : RegAddr) (b : ChannelBlock) {m : Memory}
    (h : autoIncrement (Memory.read m regMode1) = true) :
    deliveredWrite draw a (blockBytes b) m = landBytes (anyLand draw) a (blockBytes b) m := by
  simp [deliveredWrite, blockBytes, h]

/-- On the simulated device a write lands its bytes in order (20_memory.md R67). -/
theorem deviceWrite_sim {p : Params} (h : p.oracle = .sim) (cf : Bool) (sel : Option BusAddr) (draw : Draw)
    (a : RegAddr) (bytes : List Byte) (m : Memory) :
    deviceWrite p cf sel draw a bytes m = landBytes simLand a bytes m := by
  simp only [deviceWrite, h, simWrite]

/-- INIT's verdict leaves the simulated device as it was (20_memory.md R67). -/
theorem deviceConfirm_sim {p : Params} (h : p.oracle = .sim) (ok : Bool) (draw : Draw) (m : Memory) :
    deviceConfirm p ok draw m = m := by
  simp only [deviceConfirm, h]

/-- It leaves every other device as it was too. -/
theorem othersConfirm_sim {p : Params} (h : p.oracle = .sim) (ok : Bool) (sel : Option BusAddr) (n : Nat)
    (ds : List BusDevice) : othersConfirm p ok sel n ds = ds := by
  simp only [othersConfirm, h]

/-- A plain landing at an address below ALL_LED, MODE1 apart, writes that register only. -/
theorem PlainLanding.write {land : RegAddr → Byte → Memory → Memory} (hl : PlainLanding land) {a : RegAddr}
    (h0 : a ≠ regMode1) (h : a.toNat < 0xFA) (b : Byte) (m : Memory) :
    land a b m = Memory.write m a b := by
  obtain ⟨own, e⟩ := hl a b m h0
  rw [e, landByte_plain own b m h]

theorem led_ne_mode1 (c : Chan) {k : Nat} (hk : k < 4) : led c + BitVec.ofNat 8 k ≠ regMode1 := by
  intro h
  have := congrArg BitVec.toNat h
  rw [led_add_toNat c hk] at this
  simp [regMode1] at this

/-- Landing a block at a channel's address writes its four registers. -/
theorem landBytes_channel {land : RegAddr → Byte → Memory → Memory} (hl : PlainLanding land) (c : Chan)
    (b : ChannelBlock) (m : Memory) :
    landBytes land (led c) (blockBytes b) m =
      Memory.write (Memory.write (Memory.write (Memory.write m (led c + BitVec.ofNat 8 0) b.onL)
        (led c + BitVec.ofNat 8 1) b.onH) (led c + BitVec.ofNat 8 2) b.offL)
        (led c + BitVec.ofNat 8 3) b.offH := by
  have hw : ∀ k, k < 4 → ∀ (v : Byte) (m : Memory),
      land (led c + BitVec.ofNat 8 k) v m = Memory.write m (led c + BitVec.ofNat 8 k) v := by
    intro k hk v m
    have := c.isLt
    exact hl.write (led_ne_mode1 c hk) (by rw [led_add_toNat c hk]; omega) v m
  have e0 : led c = led c + BitVec.ofNat 8 0 := by simp
  have e1 : led c + 1#8 = led c + BitVec.ofNat 8 1 := rfl
  have e2 : led c + BitVec.ofNat 8 1 + 1#8 = led c + BitVec.ofNat 8 2 := by rw [BitVec.add_assoc]; rfl
  have e3 : led c + BitVec.ofNat 8 2 + 1#8 = led c + BitVec.ofNat 8 3 := by rw [BitVec.add_assoc]; rfl
  simp only [blockBytes, landBytes]
  rw [e1, e2, e3, hw 1 (by omega), hw 2 (by omega), hw 3 (by omega)]
  rw [show land (led c) b.onL m = Memory.write m (led c + BitVec.ofNat 8 0) b.onL by
    rw [← hw 0 (by omega), ← e0]]

theorem led_add_inj (c : Chan) {j k : Nat} (hj : j < 4) (hk : k < 4) :
    led c + BitVec.ofNat 8 j = led c + BitVec.ofNat 8 k ↔ j = k := by
  rw [← BitVec.toNat_inj, led_add_toNat c hj, led_add_toNat c hk]
  omega

theorem led_add_inBlock (c : Chan) {k : Nat} (hk : k < 4) : inBlock (led c) (led c + BitVec.ofNat 8 k) := by
  unfold inBlock
  rw [led_add_toNat c hk, led_toNat]
  omega

/-- Register k of a channel's block lies in no other channel's block. -/
theorem led_add_not_inBlock {c d : Chan} (h : d ≠ c) {k : Nat} (hk : k < 4) :
    ¬ inBlock (led d) (led c + BitVec.ofNat 8 k) := by
  unfold inBlock
  rw [led_add_toNat c hk, led_toNat]
  have : d.toNat ≠ c.toNat := fun e => h (BitVec.eq_of_toNat_eq e)
  omega

/-- MODE1 lies in no channel's block. -/
theorem mode1_not_inBlock (c : Chan) : ¬ inBlock (led c) regMode1 := by
  unfold inBlock
  rw [led_toNat]
  simp [regMode1]

/-- Landing a channel's block writes that channel and nothing else. -/
theorem landBytes_channelsWritten {land : RegAddr → Byte → Memory → Memory} (hl : PlainLanding land) (c : Chan)
    (block : Chan → ChannelBlock) {m : Memory} (hm : Memory.wf m = true) :
    ChannelsWritten m (landBytes land (led c) (blockBytes (block c)) m) [c] block := by
  rw [landBytes_channel hl]
  have w0 := Memory.write_wf (led c + BitVec.ofNat 8 0) (block c).onL hm
  have w1 := Memory.write_wf (led c + BitVec.ofNat 8 1) (block c).onH w0
  have w2 := Memory.write_wf (led c + BitVec.ofNat 8 2) (block c).offL w1
  constructor
  · intro d hd k hk
    obtain rfl : d = c := by simpa using hd
    rw [Memory.read_write w2, Memory.read_write w1, Memory.read_write w0, Memory.read_write hm]
    simp only [led_add_inj d (show 3 < 4 by omega) hk, led_add_inj d (show 2 < 4 by omega) hk,
      led_add_inj d (show 1 < 4 by omega) hk, led_add_inj d (show 0 < 4 by omega) hk]
    interval_cases k <;> simp [blockBytes]
  · intro x hx
    have hne : ∀ k, k < 4 → led c + BitVec.ofNat 8 k ≠ x := fun k hk e =>
      hx c (by simp) (e ▸ led_add_inBlock c hk)
    rw [Memory.read_write w2, Memory.read_write w1, Memory.read_write w0, Memory.read_write hm,
      if_neg (hne 3 (by omega)), if_neg (hne 2 (by omega)), if_neg (hne 1 (by omega)), if_neg (hne 0 (by omega))]

/-- No channels written: nothing changed. -/
theorem channelsWritten_nil (m : Memory) (block : Chan → ChannelBlock) : ChannelsWritten m m [] block :=
  ⟨by simp, fun _ _ => rfl⟩

/-- One channel written, then the others. -/
theorem channelsWritten_cons {m m1 m2 : Memory} {c : Chan} {cs : List Chan} {block : Chan → ChannelBlock}
    (h1 : ChannelsWritten m m1 [c] block) (h2 : ChannelsWritten m1 m2 cs block) :
    ChannelsWritten m m2 (c :: cs) block := by
  constructor
  · intro d hd k hk
    by_cases hmem : d ∈ cs
    · exact h2.1 d hmem k hk
    · obtain rfl : d = c := by simpa [hmem] using hd
      rw [h2.2 _ (fun e he => led_add_not_inBlock (fun h => hmem (by rwa [← h])) hk)]
      exact h1.1 d (by simp) k hk
  · intro x hx
    rw [h2.2 x (fun d hd => hx d (by simp [hd])), h1.2 x (fun d hd => hx d (by simp at hd; simp [hd]))]

/-- Writing channels leaves MODE1 as it was. -/
theorem ChannelsWritten.mode1 {m m' : Memory} {cs : List Chan} {block : Chan → ChannelBlock}
    (h : ChannelsWritten m m' cs block) : Memory.read m' regMode1 = Memory.read m regMode1 :=
  h.2 _ fun c _ => mode1_not_inBlock c

/-! ### The ALL_LED block -/

theorem allLed_add_toNat {k : Nat} (hk : k < 4) : (regAllLed + BitVec.ofNat 8 k).toNat = 0xFA + k := by
  rw [BitVec.toNat_add, BitVec.toNat_ofNat]
  simp only [regAllLed, BitVec.toNat_ofNat]
  omega

/-- Landing a block at ALL_LED is landing its four bytes at registers 0xFA + 0 to 0xFA + 3. -/
theorem landBytes_allLed_eq (land : RegAddr → Byte → Memory → Memory) (b : ChannelBlock) (m : Memory) :
    landBytes land regAllLed (blockBytes b) m =
      land (regAllLed + BitVec.ofNat 8 3) b.offH (land (regAllLed + BitVec.ofNat 8 2) b.offL
        (land (regAllLed + BitVec.ofNat 8 1) b.onH (land (regAllLed + BitVec.ofNat 8 0) b.onL m))) := rfl

/-- ALL_LED register k is at offset k of the alias block. -/
theorem aliasOffset_allLed {k : Nat} (hk : k < 4) : aliasOffset (regAllLed + BitVec.ofNat 8 k) = some k := by
  unfold aliasOffset
  rw [allLed_add_toNat hk, if_pos ⟨Nat.le_add_right _ _, by omega⟩, Nat.add_sub_cancel_left]

/-- One byte landing at ALL_LED register k: every channel's register k holds it, the registers outside ALL_LED and the channels' registers k are as before. -/
theorem read_land_alias {land : RegAddr → Byte → Memory → Memory} (hl : PlainLanding land) {k : Nat} (hk : k < 4)
    (b : Byte) {m : Memory} (hm : Memory.wf m = true) :
    Memory.wf (land (regAllLed + BitVec.ofNat 8 k) b m) = true ∧
    ∀ x, ¬ inBlock regAllLed x →
      Memory.read (land (regAllLed + BitVec.ofNat 8 k) b m) x =
        if ∃ c, led c + BitVec.ofNat 8 k = x then b else Memory.read m x := by
  have hne : regAllLed + BitVec.ofNat 8 k ≠ regMode1 := by
    intro h
    have := congrArg BitVec.toNat h
    rw [allLed_add_toNat hk] at this
    simp [regMode1] at this
  obtain ⟨own, e⟩ := hl _ b m hne
  refine ⟨e ▸ landByte_wf _ _ _ hm, fun x hx => ?_⟩
  rw [e]
  simp only [landByte, aliasOffset_allLed hk]
  rw [read_fanOut b allChannels (Memory.write_wf _ _ hm), Memory.read_write hm]
  have hx' : regAllLed + BitVec.ofNat 8 k ≠ x := by
    rintro rfl
    refine hx ?_
    unfold inBlock
    rw [allLed_add_toNat hk]
    simp only [regAllLed, BitVec.toNat_ofNat]
    omega
  simp only [mem_allChannels, true_and, if_neg hx']

/-- One byte landing at ALL_LED register k of the simulated device: that register holds it, the other ALL_LED registers are as before. -/
theorem read_simLand_allLed {j k : Nat} (hj : j < 4) (hk : k < 4) (b : Byte) {m : Memory} (hm : Memory.wf m = true) :
    Memory.read (simLand (regAllLed + BitVec.ofNat 8 k) b m) (regAllLed + BitVec.ofNat 8 j) =
      if k = j then b else Memory.read m (regAllLed + BitVec.ofNat 8 j) := by
  have hc : ¬ ∃ c ∈ allChannels, led c + BitVec.ofNat 8 k = regAllLed + BitVec.ofNat 8 j := by
    rintro ⟨c, _, h⟩
    have := congrArg BitVec.toNat h
    rw [led_add_toNat c hk, allLed_add_toNat hj] at this
    have := c.isLt
    omega
  have he : regAllLed + BitVec.ofNat 8 k = regAllLed + BitVec.ofNat 8 j ↔ k = j := by
    rw [← BitVec.toNat_inj, allLed_add_toNat hk, allLed_add_toNat hj]
    omega
  simp only [simLand, landByte, aliasOffset_allLed hk]
  rw [read_fanOut b allChannels (Memory.write_wf _ _ hm), if_neg hc, Memory.read_write hm]
  simp only [he]

/-- A write to ALL_LED on the simulated device leaves its bytes in the ALL_LED registers (20_memory.md R67). -/
theorem simWrite_allLed_aliasHolds (b : ChannelBlock) {m : Memory} (hm : Memory.wf m = true) :
    AliasHolds (simWrite regAllLed (blockBytes b) m) b := by
  have wf : ∀ a v (m : Memory), Memory.wf m = true → Memory.wf (simLand a v m) = true := fun a v _ h =>
    landByte_wf v a v h
  have w0 := wf (regAllLed + BitVec.ofNat 8 0) b.onL m hm
  have w1 := wf (regAllLed + BitVec.ofNat 8 1) b.onH _ w0
  have w2 := wf (regAllLed + BitVec.ofNat 8 2) b.offL _ w1
  have e := landBytes_allLed_eq simLand b m
  intro k hk
  rw [simWrite, e, read_simLand_allLed hk (by omega) _ w2, read_simLand_allLed hk (by omega) _ w1,
    read_simLand_allLed hk (by omega) _ w0, read_simLand_allLed hk (by omega) _ hm]
  interval_cases k <;> simp [blockBytes]

/-- Landing a block at ALL_LED writes it to every channel. -/
theorem landBytes_allLed {land : RegAddr → Byte → Memory → Memory} (hl : PlainLanding land) (b : ChannelBlock)
    {m : Memory} (hm : Memory.wf m = true) :
    AllLedWritten m (landBytes land regAllLed (blockBytes b) m) b := by
  have a0 := read_land_alias hl (show 0 < 4 by omega) b.onL hm
  have a1 := read_land_alias hl (show 1 < 4 by omega) b.onH a0.1
  have a2 := read_land_alias hl (show 2 < 4 by omega) b.offL a1.1
  have a3 := read_land_alias hl (show 3 < 4 by omega) b.offH a2.1
  rw [landBytes_allLed_eq]
  constructor
  · intro c k hk
    have hx : ¬ inBlock regAllLed (led c + BitVec.ofNat 8 k) := by
      unfold inBlock
      have := c.isLt
      rw [led_add_toNat c hk]
      simp only [regAllLed, BitVec.toNat_ofNat]
      omega
    have hj : ∀ j, j < 4 → ((∃ d, led d + BitVec.ofNat 8 j = led c + BitVec.ofNat 8 k) ↔ j = k) := by
      intro j hj
      constructor
      · rintro ⟨d, h⟩
        have := congrArg BitVec.toNat h
        rw [led_add_toNat d hj, led_add_toNat c hk] at this
        omega
      · rintro rfl
        exact ⟨c, rfl⟩
    rw [a3.2 _ hx, a2.2 _ hx, a1.2 _ hx, a0.2 _ hx]
    simp only [hj 3 (by omega), hj 2 (by omega), hj 1 (by omega), hj 0 (by omega)]
    interval_cases k <;> simp [blockBytes]
  · intro x hc hx
    have hn : ∀ j, j < 4 → ¬ ∃ d, led d + BitVec.ofNat 8 j = x := by
      rintro j hj ⟨d, rfl⟩
      exact hc d (led_add_inBlock d hj)
    rw [a3.2 _ hx, a2.2 _ hx, a1.2 _ hx, a0.2 _ hx, if_neg (hn 3 (by omega)), if_neg (hn 2 (by omega)),
      if_neg (hn 1 (by omega)), if_neg (hn 0 (by omega))]

end Sys2Proof.Machine
end

