-- ==== Sys2Proof/Laws/Encoding.lean ====
section
/-! SUPPORT. Laws of the encoding: words and bytes, and the two statements of operand legality agreeing. -/

namespace Sys2Proof

/-- A word made into bytes and back (30_encoding.md R81). -/
theorem wordOfBytes_byteOfWord (w : Word32) :
    wordOfBytes (byteOfWord w 0) (byteOfWord w 1) (byteOfWord w 2) (byteOfWord w 3) = w := by
  apply BitVec.eq_of_getLsbD_eq
  intro i hi
  simp only [wordOfBytes, byteOfWord, BitVec.getLsbD_append, BitVec.getLsbD_extractLsb']
  split
  · simp [*]
  · split
    · have : i - 8 < 8 := by omega
      simp only [this, decide_true, Bool.true_and]
      congr 1
      omega
    · split
      · have : i - 8 - 8 < 8 := by omega
        simp only [this, decide_true, Bool.true_and]
        congr 1
        omega
      · have : i - 8 - 8 - 8 < 8 := by omega
        simp only [this, decide_true, Bool.true_and]
        congr 1
        omega

/-- The legality the commands check is the one well-formedness states (30_encoding.md R89, R90). -/
theorem countLegal_iff_wellFormed (first : Chan) (count : BitVec 5) (p : Payload) :
    Machine.countLegal count = (Instr.setbrs first count p).wellFormed := rfl

theorem groupLegal_iff_wellFormed (v0 v1 v2 : Byte) (group : BitVec 3) :
    Machine.groupLegal group = (Instr.setrgb v0 v1 v2 group).wellFormed := rfl

end Sys2Proof
end

