-- ==== Sys2Proof/Laws/PerInstr.lean ====
section
/-! SUPPORT. A fact of every command as syntax, one lemma per constructor: its header's OP is the opcode map's, and its length follows from OP alone. -/

namespace Sys2Proof.Laws.HeaderShape

/-- The OP of each command (30_encoding.md R92). -/
def opcode (i : Instr) : BitVec 4 :=
  match i with
  | .init _ _ => 0x1#4
  | .sleep _ => 0x2#4
  | .allon => 0x3#4
  | .alloff => 0x4#4
  | .setbits _ => 0x5#4
  | .setonmask _ => 0x6#4
  | .setoffmask _ => 0x7#4
  | .setbr _ _ => 0x8#4
  | .setbrall _ => 0x9#4
  | .setbrs _ _ _ => 0xA#4
  | .setrgb _ _ _ _ => 0xB#4

/-- OP is the opcode map's, and the number of words is what OP alone says (30_encoding.md R92, R93). -/
def Statement (i : Instr) : Prop :=
  opField (encodeHeader i) = opcode i ∧ (encode i).length = opWords (opField (encodeHeader i)) ∧
    instrWords i = (encode i).length

/-- The low four bits of a header that ends in its OP. -/
theorem opField_append {n : Nat} (x : BitVec n) (op : BitVec 4) (h : Word32)
    (e : ∀ i, i < 4 → h.getLsbD i = (x ++ op).getLsbD i) : opField h = op := by
  apply BitVec.eq_of_getLsbD_eq
  intro i hi
  simp only [opField, BitVec.getLsbD_extractLsb', Nat.zero_add, hi, decide_true, Bool.true_and]
  rw [e i hi, BitVec.getLsbD_append, if_pos hi]

theorem of_opField {i : Instr} (h : opField (encodeHeader i) = opcode i)
    (hl : (encode i).length = opWords (opcode i)) (hw : instrWords i = (encode i).length) : Statement i :=
  ⟨h, by rw [h]; exact hl, hw⟩

theorem init (drv : Byte) (addr : BusAddr) : Statement (.init drv addr) :=
  of_opField (opField_append (0#9 ++ addr ++ drv ++ 0#4) _ _ fun _ _ => rfl) rfl rfl

theorem sleep (e : Bool) : Statement (.sleep e) :=
  of_opField (opField_append (0#23 ++ BitVec.ofBool e ++ 0#4) _ _ fun _ _ => rfl) rfl rfl

theorem allon : Statement .allon := of_opField (by decide) rfl rfl

theorem alloff : Statement .alloff := of_opField (by decide) rfl rfl

theorem setbits (mask : BitVec 16) : Statement (.setbits mask) :=
  of_opField (opField_append (mask ++ 0#12) _ _ fun _ _ => rfl) rfl rfl

theorem setonmask (mask : BitVec 16) : Statement (.setonmask mask) :=
  of_opField (opField_append (mask ++ 0#12) _ _ fun _ _ => rfl) rfl rfl

theorem setoffmask (mask : BitVec 16) : Statement (.setoffmask mask) :=
  of_opField (opField_append (mask ++ 0#12) _ _ fun _ _ => rfl) rfl rfl

theorem setbr (br : Byte) (ch : Chan) : Statement (.setbr br ch) :=
  of_opField (opField_append (0#16 ++ br ++ ch) _ _ fun _ _ => rfl) rfl rfl

theorem setbrall (br : Byte) : Statement (.setbrall br) :=
  of_opField (opField_append (0#16 ++ br ++ 0#4) _ _ fun _ _ => rfl) rfl rfl

theorem setbrs (first : Chan) (count : BitVec 5) (payload : Payload) : Statement (.setbrs first count payload) :=
  of_opField (opField_append (0#19 ++ count ++ first) _ _ fun _ _ => rfl) rfl rfl

theorem setrgb (v0 v1 v2 : Byte) (group : BitVec 3) : Statement (.setrgb v0 v1 v2 group) :=
  of_opField (opField_append (v2 ++ v1 ++ v0 ++ 0#1 ++ group) _ _ fun _ _ => rfl) rfl rfl

end Sys2Proof.Laws.HeaderShape
end

