-- ==== Sys2Proof/Laws/State.lean ====
section
/-! SUPPORT. What each operation on the state does to each field, true by unfolding, so that no later proof unfolds a record update. -/

namespace Sys2Proof.Machine

@[simp] theorem State.record_addr (s : State) (e : Event) : (s.record e).addr = s.addr := rfl
@[simp] theorem State.record_cfg (s : State) (e : Event) : (s.record e).cfg = s.cfg := rfl
@[simp] theorem State.record_ok (s : State) (e : Event) : (s.record e).ok = s.ok := rfl
@[simp] theorem State.record_flt (s : State) (e : Event) : (s.record e).flt = s.flt := rfl
@[simp] theorem State.record_fcode (s : State) (e : Event) : (s.record e).fcode = s.fcode := rfl
@[simp] theorem State.record_cp (s : State) (e : Event) : (s.record e).cp = s.cp := rfl
@[simp] theorem State.record_log (s : State) (e : Event) : (s.record e).log = s.log ++ [e] := rfl
@[simp] theorem State.record_seq (s : State) (e : Event) : (s.record e).seq = s.seq := rfl
@[simp] theorem State.record_latch (s : State) (e : Event) : (s.record e).latch = s.latch := rfl
@[simp] theorem State.record_busAddr (s : State) (e : Event) : (s.record e).busAddr = s.busAddr := rfl
@[simp] theorem State.record_dev (s : State) (e : Event) : (s.record e).dev = s.dev := rfl
@[simp] theorem State.record_others (s : State) (e : Event) : (s.record e).others = s.others := rfl
@[simp] theorem State.record_stream (s : State) (e : Event) : (s.record e).stream = s.stream := rfl
@[simp] theorem State.record_params (s : State) (e : Event) : (s.record e).params = s.params := rfl
@[simp] theorem State.record_draws (s : State) (e : Event) : (s.record e).draws = s.draws + 1 := rfl

@[simp] theorem State.setDeviceAddress_addr (s : State) (d : BusAddr) : (s.setDeviceAddress d).addr = s.addr := rfl
@[simp] theorem State.setDeviceAddress_cfg (s : State) (d : BusAddr) : (s.setDeviceAddress d).cfg = s.cfg := rfl
@[simp] theorem State.setDeviceAddress_ok (s : State) (d : BusAddr) : (s.setDeviceAddress d).ok = s.ok := rfl
@[simp] theorem State.setDeviceAddress_flt (s : State) (d : BusAddr) : (s.setDeviceAddress d).flt = s.flt := rfl
@[simp] theorem State.setDeviceAddress_fcode (s : State) (d : BusAddr) : (s.setDeviceAddress d).fcode = s.fcode := rfl
@[simp] theorem State.setDeviceAddress_cp (s : State) (d : BusAddr) : (s.setDeviceAddress d).cp = s.cp := rfl
@[simp] theorem State.setDeviceAddress_log (s : State) (d : BusAddr) : (s.setDeviceAddress d).log = s.log ++ [.A d] := rfl
@[simp] theorem State.setDeviceAddress_seq (s : State) (d : BusAddr) : (s.setDeviceAddress d).seq = s.seq := rfl
@[simp] theorem State.setDeviceAddress_latch (s : State) (d : BusAddr) : (s.setDeviceAddress d).latch = s.latch := rfl
@[simp] theorem State.setDeviceAddress_busAddr (s : State) (d : BusAddr) : (s.setDeviceAddress d).busAddr = some d := rfl
@[simp] theorem State.setDeviceAddress_dev (s : State) (d : BusAddr) : (s.setDeviceAddress d).dev = deviceSelect s.params { device := 0, number := s.draws } s.busAddr d s.dev := rfl
@[simp] theorem State.setDeviceAddress_others (s : State) (d : BusAddr) : (s.setDeviceAddress d).others = s.others := rfl
@[simp] theorem State.setDeviceAddress_stream (s : State) (d : BusAddr) : (s.setDeviceAddress d).stream = s.stream := rfl
@[simp] theorem State.setDeviceAddress_params (s : State) (d : BusAddr) : (s.setDeviceAddress d).params = s.params := rfl
@[simp] theorem State.setDeviceAddress_draws (s : State) (d : BusAddr) : (s.setDeviceAddress d).draws = s.draws + 1 := rfl

@[simp] theorem State.memWrite_addr (s : State) (cf : Bool) (a : RegAddr) (bytes : List Byte) : (s.memWrite cf a bytes).addr = s.addr := rfl
@[simp] theorem State.memWrite_cfg (s : State) (cf : Bool) (a : RegAddr) (bytes : List Byte) : (s.memWrite cf a bytes).cfg = s.cfg := rfl
@[simp] theorem State.memWrite_ok (s : State) (cf : Bool) (a : RegAddr) (bytes : List Byte) : (s.memWrite cf a bytes).ok = s.ok := rfl
@[simp] theorem State.memWrite_flt (s : State) (cf : Bool) (a : RegAddr) (bytes : List Byte) : (s.memWrite cf a bytes).flt = s.flt := rfl
@[simp] theorem State.memWrite_fcode (s : State) (cf : Bool) (a : RegAddr) (bytes : List Byte) : (s.memWrite cf a bytes).fcode = s.fcode := rfl
@[simp] theorem State.memWrite_cp (s : State) (cf : Bool) (a : RegAddr) (bytes : List Byte) : (s.memWrite cf a bytes).cp = s.cp := rfl
@[simp] theorem State.memWrite_log (s : State) (cf : Bool) (a : RegAddr) (bytes : List Byte) : (s.memWrite cf a bytes).log = s.log ++ [.W a bytes] := rfl
@[simp] theorem State.memWrite_seq (s : State) (cf : Bool) (a : RegAddr) (bytes : List Byte) : (s.memWrite cf a bytes).seq = s.seq := rfl
@[simp] theorem State.memWrite_latch (s : State) (cf : Bool) (a : RegAddr) (bytes : List Byte) : (s.memWrite cf a bytes).latch = s.latch := rfl
@[simp] theorem State.memWrite_busAddr (s : State) (cf : Bool) (a : RegAddr) (bytes : List Byte) : (s.memWrite cf a bytes).busAddr = s.busAddr := rfl
@[simp] theorem State.memWrite_dev (s : State) (cf : Bool) (a : RegAddr) (bytes : List Byte) : (s.memWrite cf a bytes).dev = deviceWrite s.params cf s.busAddr { device := 0, number := s.draws } a bytes s.dev := rfl
@[simp] theorem State.memWrite_others (s : State) (cf : Bool) (a : RegAddr) (bytes : List Byte) : (s.memWrite cf a bytes).others = othersWrite s.params cf s.busAddr s.draws a bytes s.others := rfl
@[simp] theorem State.memWrite_stream (s : State) (cf : Bool) (a : RegAddr) (bytes : List Byte) : (s.memWrite cf a bytes).stream = s.stream := rfl
@[simp] theorem State.memWrite_params (s : State) (cf : Bool) (a : RegAddr) (bytes : List Byte) : (s.memWrite cf a bytes).params = s.params := rfl
@[simp] theorem State.memWrite_draws (s : State) (cf : Bool) (a : RegAddr) (bytes : List Byte) : (s.memWrite cf a bytes).draws = s.draws + 1 := rfl

@[simp] theorem State.memRead_addr (s : State) (a : RegAddr) : (s.memRead a).addr = s.addr := rfl
@[simp] theorem State.memRead_cfg (s : State) (a : RegAddr) : (s.memRead a).cfg = s.cfg := rfl
@[simp] theorem State.memRead_ok (s : State) (a : RegAddr) : (s.memRead a).ok = s.ok := rfl
@[simp] theorem State.memRead_flt (s : State) (a : RegAddr) : (s.memRead a).flt = s.flt := rfl
@[simp] theorem State.memRead_fcode (s : State) (a : RegAddr) : (s.memRead a).fcode = s.fcode := rfl
@[simp] theorem State.memRead_cp (s : State) (a : RegAddr) : (s.memRead a).cp = s.cp := rfl
@[simp] theorem State.memRead_log (s : State) (a : RegAddr) : (s.memRead a).log = s.log ++ [.R a 1 [deviceRead s.params s.draws a s.dev]] := rfl
@[simp] theorem State.memRead_seq (s : State) (a : RegAddr) : (s.memRead a).seq = s.seq := rfl
@[simp] theorem State.memRead_latch (s : State) (a : RegAddr) : (s.memRead a).latch = deviceRead s.params s.draws a s.dev := rfl
@[simp] theorem State.memRead_busAddr (s : State) (a : RegAddr) : (s.memRead a).busAddr = s.busAddr := rfl
@[simp] theorem State.memRead_dev (s : State) (a : RegAddr) : (s.memRead a).dev = s.dev := rfl
@[simp] theorem State.memRead_others (s : State) (a : RegAddr) : (s.memRead a).others = s.others := rfl
@[simp] theorem State.memRead_stream (s : State) (a : RegAddr) : (s.memRead a).stream = s.stream := rfl
@[simp] theorem State.memRead_params (s : State) (a : RegAddr) : (s.memRead a).params = s.params := rfl
@[simp] theorem State.memRead_draws (s : State) (a : RegAddr) : (s.memRead a).draws = s.draws + 1 := rfl

@[simp] theorem State.complete_addr (s : State) (len : Nat) : (s.complete len).addr = s.addr := rfl
@[simp] theorem State.complete_cfg (s : State) (len : Nat) : (s.complete len).cfg = s.cfg := rfl
@[simp] theorem State.complete_ok (s : State) (len : Nat) : (s.complete len).ok = s.ok := rfl
@[simp] theorem State.complete_flt (s : State) (len : Nat) : (s.complete len).flt = s.flt := rfl
@[simp] theorem State.complete_fcode (s : State) (len : Nat) : (s.complete len).fcode = s.fcode := rfl
@[simp] theorem State.complete_cp (s : State) (len : Nat) : (s.complete len).cp = s.cp + len := rfl
@[simp] theorem State.complete_log (s : State) (len : Nat) : (s.complete len).log = s.log := rfl
@[simp] theorem State.complete_seq (s : State) (len : Nat) : (s.complete len).seq = [] := rfl
@[simp] theorem State.complete_latch (s : State) (len : Nat) : (s.complete len).latch = 0x00#8 := rfl
@[simp] theorem State.complete_busAddr (s : State) (len : Nat) : (s.complete len).busAddr = s.busAddr := rfl
@[simp] theorem State.complete_dev (s : State) (len : Nat) : (s.complete len).dev = s.dev := rfl
@[simp] theorem State.complete_others (s : State) (len : Nat) : (s.complete len).others = s.others := rfl
@[simp] theorem State.complete_stream (s : State) (len : Nat) : (s.complete len).stream = s.stream := rfl
@[simp] theorem State.complete_params (s : State) (len : Nat) : (s.complete len).params = s.params := rfl
@[simp] theorem State.complete_draws (s : State) (len : Nat) : (s.complete len).draws = s.draws := rfl

@[simp] theorem State.configure_addr (s : State) : s.configure.addr = s.addr := rfl
@[simp] theorem State.configure_cfg (s : State) : s.configure.cfg = true := rfl
@[simp] theorem State.configure_ok (s : State) : s.configure.ok = initOk s.latch := rfl
@[simp] theorem State.configure_flt (s : State) : s.configure.flt = s.flt := rfl
@[simp] theorem State.configure_fcode (s : State) : s.configure.fcode = s.fcode := rfl
@[simp] theorem State.configure_cp (s : State) : s.configure.cp = s.cp := rfl
@[simp] theorem State.configure_log (s : State) : s.configure.log = s.log := rfl
@[simp] theorem State.configure_seq (s : State) : s.configure.seq = s.seq := rfl
@[simp] theorem State.configure_latch (s : State) : s.configure.latch = s.latch := rfl
@[simp] theorem State.configure_busAddr (s : State) : s.configure.busAddr = s.busAddr := rfl
@[simp] theorem State.configure_dev (s : State) : s.configure.dev = deviceConfirm s.params (initOk s.latch) { device := 0, number := s.draws } s.dev := rfl
@[simp] theorem State.configure_others (s : State) : s.configure.others = othersConfirm s.params (initOk s.latch) s.busAddr s.draws s.others := rfl
@[simp] theorem State.configure_stream (s : State) : s.configure.stream = s.stream := rfl
@[simp] theorem State.configure_params (s : State) : s.configure.params = s.params := rfl
@[simp] theorem State.configure_draws (s : State) : s.configure.draws = s.draws + 1 := rfl

@[simp] theorem State.raiseFault_addr (s : State) (c : FaultCode) : (s.raiseFault c).addr = s.addr := rfl
@[simp] theorem State.raiseFault_cfg (s : State) (c : FaultCode) : (s.raiseFault c).cfg = s.cfg := rfl
@[simp] theorem State.raiseFault_ok (s : State) (c : FaultCode) : (s.raiseFault c).ok = s.ok := rfl
@[simp] theorem State.raiseFault_flt (s : State) (c : FaultCode) : (s.raiseFault c).flt = true := rfl
@[simp] theorem State.raiseFault_fcode (s : State) (c : FaultCode) : (s.raiseFault c).fcode = faultCodeBits c := rfl
@[simp] theorem State.raiseFault_cp (s : State) (c : FaultCode) : (s.raiseFault c).cp = s.cp := rfl
@[simp] theorem State.raiseFault_log (s : State) (c : FaultCode) : (s.raiseFault c).log = s.log := rfl
@[simp] theorem State.raiseFault_seq (s : State) (c : FaultCode) : (s.raiseFault c).seq = s.seq := rfl
@[simp] theorem State.raiseFault_latch (s : State) (c : FaultCode) : (s.raiseFault c).latch = s.latch := rfl
@[simp] theorem State.raiseFault_busAddr (s : State) (c : FaultCode) : (s.raiseFault c).busAddr = s.busAddr := rfl
@[simp] theorem State.raiseFault_dev (s : State) (c : FaultCode) : (s.raiseFault c).dev = s.dev := rfl
@[simp] theorem State.raiseFault_others (s : State) (c : FaultCode) : (s.raiseFault c).others = s.others := rfl
@[simp] theorem State.raiseFault_stream (s : State) (c : FaultCode) : (s.raiseFault c).stream = s.stream := rfl
@[simp] theorem State.raiseFault_params (s : State) (c : FaultCode) : (s.raiseFault c).params = s.params := rfl
@[simp] theorem State.raiseFault_draws (s : State) (c : FaultCode) : (s.raiseFault c).draws = s.draws := rfl

end Sys2Proof.Machine
end

