-- ==== Sys2Proof/Laws/Sequencer.lean ====
section
/-! SUPPORT. What the sequencer does: a command's transactions run one by one, so that running them is a fold over the list; and what a list of channel writes does to each field. -/

namespace Sys2Proof.Machine

theorem State.issue_seq (s : State) (q : List MicroOp) (op : MicroOp) :
    ({ s with seq := q }).issue op = { s.issue op with seq := q } := by
  cases op <;> rfl

/-- Running a list of transactions is issuing them in order; the sequencer is then idle. -/
theorem State.runSeq_eq (s : State) (ops : List MicroOp) :
    s.runSeq ops = { ops.foldl State.issue s with seq := [] } := by
  unfold State.runSeq
  induction ops generalizing s with
  | nil => rfl
  | cons op rest ih =>
    rw [List.length_cons, State.microSteps]
    simp only [State.microStep]
    rw [State.issue_seq, ih (s.issue op), List.foldl_cons]

/-- What a list of channel writes does: it logs them in order, keeps every field of the block, and writes those channels of the simulated device. -/
theorem issueChannels (s : State) (cs : List Chan) (block : Chan → ChannelBlock) :
    let t := (cs.map (fun c => channelWrite c (block c))).foldl State.issue s
    t.log = s.log ++ cs.map (fun c => Event.W (led c) (blockBytes (block c))) ∧
      t.addr = s.addr ∧ t.cfg = s.cfg ∧ t.ok = s.ok ∧ t.flt = s.flt ∧ t.fcode = s.fcode ∧ t.cp = s.cp ∧
      t.busAddr = s.busAddr ∧ t.stream = s.stream ∧ t.params = s.params ∧
      t.draws = s.draws + cs.length ∧
      (Memory.wf s.dev = true → s.params.oracle = .sim → ChannelsWritten s.dev t.dev cs block) := by
  induction cs generalizing s with
  | nil => simp [channelsWritten_nil]
  | cons c rest ih =>
    have h := ih (s.issue (channelWrite c (block c)))
    simp only [List.map_cons, List.foldl_cons] at h ⊢
    obtain ⟨hlog, h1, h2, h3, h4, h5, h6, h7, h8, h9, h10, h11⟩ := h
    refine ⟨?_, h1, h2, h3, h4, h5, h6, h7, h8, h9, ?_, ?_⟩
    · rw [hlog]
      simp [channelWrite, State.issue]
    · rw [h10]
      simp [channelWrite, State.issue]
      omega
    · intro hm ht
      have hdev : (s.issue (channelWrite c (block c))).dev = landBytes simLand (led c) (blockBytes (block c)) s.dev :=
        deviceWrite_sim ht _ _ _ _ _ _
      have hw := landBytes_channelsWritten simLand_plain c block hm
      exact channelsWritten_cons (hdev ▸ hw) (h11 (deviceWrite_wf _ _ _ _ _ _ hm) ht)

/-- A command of channel writes, when CFG = 1: the next state and everything it keeps. -/
theorem runCommand_channels {s : State} (hcfg : s.cfg = true) (cs : List Chan) (block : Chan → ChannelBlock)
    (len : Nat) :
    ∃ t, s.runCommand (cs.map (fun c => channelWrite c (block c))) len = .next t ∧
      t.log = s.log ++ cs.map (fun c => Event.W (led c) (blockBytes (block c))) ∧
      t.cp = s.cp + len ∧ CommandFrame s t ∧ t.draws = s.draws + cs.length ∧
      (Memory.wf s.dev = true → s.params.oracle = .sim → ChannelsWritten s.dev t.dev cs block) := by
  obtain ⟨hlog, h1, h2, h3, h4, h5, h6, h7, h8, h9, h10, h11⟩ := issueChannels s cs block
  refine ⟨_, by rw [State.runCommand, if_pos hcfg], ?_⟩
  rw [State.runSeq_eq]
  exact ⟨hlog, congrArg (· + len) h6, ⟨h1, h2, h3, h4, h5, h7, h8, h9, rfl, rfl⟩, h10, h11⟩

/-- A command that is one write of ALL_LED, when CFG = 1: the next state and everything it keeps. -/
theorem runCommand_allLed {s : State} (hcfg : s.cfg = true) (b : ChannelBlock) (len : Nat) :
    ∃ t, s.runCommand [allLedWrite b] len = .next t ∧
      t.log = s.log ++ [Event.W regAllLed (blockBytes b)] ∧
      t.cp = s.cp + len ∧ CommandFrame s t ∧ t.draws = s.draws + 1 ∧
      (Memory.wf s.dev = true → s.params.oracle = .sim → AllLedWritten s.dev t.dev b) ∧
      (Memory.wf s.dev = true → s.params.oracle = .sim → AliasHolds t.dev b) := by
  refine ⟨(s.runSeq [allLedWrite b]).complete len, by rw [State.runCommand, if_pos hcfg], rfl, rfl, ⟨rfl, rfl, rfl, rfl, rfl, rfl, rfl, rfl, rfl, rfl⟩,
    rfl, fun hm ho => ?_, fun hm ho => ?_⟩
  all_goals
    rw [show ((s.runSeq [allLedWrite b]).complete len).dev = landBytes simLand regAllLed (blockBytes b) s.dev from
      deviceWrite_sim ho _ _ _ _ _ _]
  · exact landBytes_allLed simLand_plain b hm
  · exact simWrite_allLed_aliasHolds b hm

/-- Before INIT a command with legal operands enters the fault NOT_INITIALIZED. -/
theorem runCommand_notInitialized {s : State} (hcfg : s.cfg = false) (ops : List MicroOp) (len : Nat) :
    s.runCommand ops len = .next (s.raiseFault .notInitialized) := by
  simp [State.runCommand, hcfg]

end Sys2Proof.Machine
end

