-- ==== Sys2Proof/Laws/Step.lean ====
section
/-! SUPPORT. Everything exec and step can do, said once: which outcome on which condition. -/

namespace Sys2Proof.Machine

/-- The transactions of a command other than INIT that passes its checks; INIT's are `initOps`. -/
def commandOps (p : Params) (i : Instr) : List MicroOp :=
  match i with
  | .init drv addr => initOps drv addr
  | .sleep e => sleepOps e
  | .allon => [allLedWrite onBlk]
  | .alloff => [allLedWrite offBlk]
  | .setbits mask => setbitsOps mask
  | .setonmask mask => maskOps mask onBlk
  | .setoffmask mask => maskOps mask offBlk
  | .setbr br ch => [channelWrite ch (enc br ch)]
  | .setbrall br => [allLedWrite (encAll br)]
  | .setbrs first count payload => setbrsOps p first count payload
  | .setrgb v0 v1 v2 group => setrgbOps v0 v1 v2 group

/-- What exec does with each command in each state: INIT runs; another command is refused its operands, refused before INIT, or runs. -/
inductive ExecOutcome (i : Instr) (s : State) : Host.Outcome State Fault Refusal → Prop where
  | init (drv : Byte) (addr : BusAddr) (h : i = .init drv addr) :
      ExecOutcome i s (.next ((({ s with addr := some addr }).runSeq (initOps drv addr)).configure.complete 1))
  | illegalOperand (h : i.wellFormed = false) : ExecOutcome i s (.next (s.raiseFault .illegalOperand))
  | notInitialized (h : i.wellFormed = true) (hi : ∀ drv addr, i ≠ .init drv addr) (hc : s.cfg = false) :
      ExecOutcome i s (.next (s.raiseFault .notInitialized))
  | completes (h : i.wellFormed = true) (hi : ∀ drv addr, i ≠ .init drv addr) (hc : s.cfg = true) :
      ExecOutcome i s (.next ((s.runSeq (commandOps s.params i)).complete (instrWords i)))

theorem runCommand_outcome {i : Instr} {s : State} (h : i.wellFormed = true) (hi : ∀ drv addr, i ≠ .init drv addr) :
    ExecOutcome i s (s.runCommand (commandOps s.params i) (instrWords i)) := by
  unfold State.runCommand
  cases hc : s.cfg
  · exact .notInitialized h hi hc
  · exact .completes h hi hc

/-- exec's outcome, for every command and every state. -/
theorem exec_outcome (i : Instr) (s : State) : ExecOutcome i s (exec i s) := by
  cases i with
  | init drv addr => exact .init drv addr rfl
  | sleep e => exact runCommand_outcome rfl (by simp)
  | allon => exact runCommand_outcome (i := .allon) rfl (by simp)
  | alloff => exact runCommand_outcome (i := .alloff) rfl (by simp)
  | setbits mask => exact runCommand_outcome (i := .setbits mask) rfl (by simp)
  | setonmask mask => exact runCommand_outcome (i := .setonmask mask) rfl (by simp)
  | setoffmask mask => exact runCommand_outcome (i := .setoffmask mask) rfl (by simp)
  | setbr br ch => exact runCommand_outcome (i := .setbr br ch) rfl (by simp)
  | setbrall br => exact runCommand_outcome (i := .setbrall br) rfl (by simp)
  | setbrs first count payload =>
    change ExecOutcome _ s (execSetbrs first count payload s)
    unfold execSetbrs
    split
    · exact runCommand_outcome (i := .setbrs first count payload) ‹_› (by simp)
    · rename_i h
      exact .illegalOperand (Bool.eq_false_iff.2 h)
  | setrgb v0 v1 v2 group =>
    change ExecOutcome _ s (execSetrgb v0 v1 v2 group s)
    unfold execSetrgb
    split
    · exact runCommand_outcome (i := .setrgb v0 v1 v2 group) ‹_› (by simp)
    · rename_i h
      exact .illegalOperand (Bool.eq_false_iff.2 h)

/-- What step does in each state: a faulted block stops, an idle one waits, a header that does not decode enters its fault, any other command is executed. -/
inductive StepOutcome (s : State) : Host.Outcome State Fault Refusal → Prop where
  | faulted (h : s.flt = true) : StepOutcome s (.fault (.blockFaulted s.fcode))
  | idle (h : s.flt = false) (hw : s.pendingWords = []) : StepOutcome s (.next s)
  | undecoded (h : s.flt = false) (hw : s.pendingWords ≠ []) (c : FaultCode) (hd : decode s.pendingWords = .error c) :
      StepOutcome s (.next (s.raiseFault c))
  | executed (h : s.flt = false) (hw : s.pendingWords ≠ []) (i : Instr) (hd : decode s.pendingWords = .ok i) :
      StepOutcome s (exec i s)

/-- step's outcome, for every state. -/
theorem step_outcome (s : State) : StepOutcome s (step s) := by
  unfold step
  split
  · exact .faulted ‹_›
  · rename_i hf
    have hf : s.flt = false := Bool.eq_false_iff.2 hf
    split
    · exact .idle hf ‹_›
    · rename_i w ws hw
      have hne : s.pendingWords ≠ [] := by simp [hw]
      split
      · exact .executed hf hne _ (by rw [hw]; assumption)
      · exact .undecoded hf hne _ (by rw [hw]; assumption)

/-! ### Running any list of transactions -/

/-- The event a transaction logs, and what it does to the fields it can reach. -/
theorem State.issue_log (s : State) (op : MicroOp) : ∃ e : Event, (s.issue op).log = s.log ++ [e] := by
  cases op <;> exact ⟨_, rfl⟩

/-- Issuing transactions appends one event each. -/
theorem State.issueAll_log (ops : List MicroOp) (s : State) :
    ∃ new : List Event, (ops.foldl State.issue s).log = s.log ++ new ∧ new.length = ops.length := by
  induction ops generalizing s with
  | nil => exact ⟨[], by simp, rfl⟩
  | cons op rest ih =>
    obtain ⟨e, he⟩ := s.issue_log op
    obtain ⟨new, hn, hl⟩ := ih (s.issue op)
    exact ⟨e :: new, by rw [List.foldl_cons, hn, he, List.append_assoc]; rfl, by simp [hl]⟩

/-- Issuing transactions keeps the register file's canonical form. -/
theorem State.issueAll_wf (ops : List MicroOp) {s : State} (h : Memory.wf s.dev = true) :
    Memory.wf (ops.foldl State.issue s).dev = true := by
  induction ops generalizing s with
  | nil => exact h
  | cons op rest ih =>
    refine ih ?_
    cases op with
    | selectDevice d => exact deviceSelect_wf _ _ _ _ h
    | write a bytes => exact deviceWrite_wf _ _ _ _ _ _ h
    | initWrite a bytes => exact deviceWrite_wf _ _ _ _ _ _ h
    | read a => exact h
    | writeSleep e => exact deviceWrite_wf _ _ _ _ _ _ h

/-- So it does every other device's. -/
theorem State.issueAll_othersWf (ops : List MicroOp) {s : State} (h : ∀ d ∈ s.others, Memory.wf d.regs = true) :
    ∀ d ∈ (ops.foldl State.issue s).others, Memory.wf d.regs = true := by
  induction ops generalizing s with
  | nil => exact h
  | cons op rest ih =>
    refine ih ?_
    cases op with
    | selectDevice d => exact h
    | write a bytes => exact othersWrite_wf _ _ _ _ _ _ h
    | initWrite a bytes => exact othersWrite_wf _ _ _ _ _ _ h
    | read a => exact h
    | writeSleep e => exact othersWrite_wf _ _ _ _ _ _ h

/-- Issuing transactions keeps which devices are on the bus; on the simulated bus it keeps the other devices' registers too (20_memory.md R67). -/
theorem State.issueAll_others (ops : List MicroOp) (s : State) :
    (ops.foldl State.issue s).others.map BusDevice.addr = s.others.map BusDevice.addr ∧
      (s.params.oracle = .sim → (ops.foldl State.issue s).others = s.others) := by
  have one : ∀ (op : MicroOp) (s : State), (s.issue op).others.map BusDevice.addr = s.others.map BusDevice.addr ∧
      (s.params.oracle = .sim → (s.issue op).others = s.others) := by
    intro op s
    cases op with
    | selectDevice d => exact ⟨rfl, fun _ => rfl⟩
    | read a => exact ⟨rfl, fun _ => rfl⟩
    | write a bytes => exact ⟨othersWrite_addr _ _ _ _ _ _ _, fun h => by simp [State.issue, othersWrite, h]⟩
    | initWrite a bytes => exact ⟨othersWrite_addr _ _ _ _ _ _ _, fun h => by simp [State.issue, othersWrite, h]⟩
    | writeSleep e => exact ⟨othersWrite_addr _ _ _ _ _ _ _, fun h => by simp [State.issue, othersWrite, h]⟩
  induction ops generalizing s with
  | nil => exact ⟨rfl, fun _ => rfl⟩
  | cons op rest ih =>
    have hp : (s.issue op).params = s.params := by cases op <;> rfl
    obtain ⟨h1, h2⟩ := ih (s.issue op)
    exact ⟨h1.trans (one op s).1, fun h => (h2 (hp ▸ h)).trans ((one op s).2 h)⟩

/-- A command that issues nothing but transactions leaves the block's own fields, the stream and the parameters as they were. -/
theorem State.issueAll_fields (ops : List MicroOp) (s : State) :
    let t := ops.foldl State.issue s
    t.addr = s.addr ∧ t.cfg = s.cfg ∧ t.ok = s.ok ∧ t.flt = s.flt ∧ t.fcode = s.fcode ∧ t.cp = s.cp ∧
      t.stream = s.stream ∧ t.params = s.params := by
  induction ops generalizing s with
  | nil => simp
  | cons op rest ih =>
    have h := ih (s.issue op)
    simp only [List.foldl_cons] at h ⊢
    cases op <;> exact h

end Sys2Proof.Machine
end

