-- ==== Sys2Proof/Tests/Slice0.lean ====
section
/-! SUPPORT. Tests: ill-formed commands, words written out from 30_encoding.md and 95_test_vectors.md §2.1, one or two steps' effects per command from 95_test_vectors.md §2.2 to §2.5, and for each obligation with hypotheses a witness that meets them. -/

namespace Sys2Proof.Tests

open Sys2Proof Sys2Proof.Machine

/-! ### Helper states -/

/-- Not initialized, on the simulated device of 95_test_vectors.md §3 (every register 0x00 but MODE1 = 0x11). -/
def fresh : State :=
  { addr := none, cfg := false, ok := false, flt := false, fcode := 0#4, cp := 0, log := [], seq := [],
    latch := 0x00#8, busAddr := none, dev := [(0x00, 0x11#8)], others := [], stream := [],
    params := { windowMode := .faithful, brIndex := .absolute, oracle := .sim, transport := .reliable }, draws := 0 }

/-- "After INIT" of 95_test_vectors.md: CFG = 1, OK = 1, the simulated device holding MODE1 = 0x21. -/
def ready : State :=
  { fresh with addr := some 0x70#7, cfg := true, ok := true, log := [.A 0x70#7], busAddr := some 0x70#7,
               dev := [(0x00, 0x21#8)] }

/-- `ready` under the oracle `any`, over a reliable transport. -/
def readyAny : State := { ready with params := { ready.params with oracle := .any } }

/-- `readyAny` on a bus with two more devices: one at 0x41 that answers all-call, one at 0x42 that answers nothing but its own address. -/
def readyBus (selected : BusAddr) : State :=
  { readyAny with busAddr := some selected,
                  others := [{ addr := 0x41#7, regs := [(0x00, 0x21#8)] }, { addr := 0x42#7, regs := [(0x00, 0x20#8)] }] }

/-- One register of another device after a command. -/
def otherAfter (i : Instr) (s : State) (j : Nat) (a : RegAddr) : Option Byte :=
  match exec i s with
  | .next t => t.others[j]?.map fun d => Memory.read d.regs a
  | .fault _ => none
  | .refused _ => none

/-- `ready` with another MODE1. -/
def readyMode1 (v : Byte) : State := { ready with dev := Memory.write [] regMode1 v }

/-- `ready` with the given window and index modes. -/
def readyWindow (w : WindowMode) (b : BrIndex) : State :=
  { ready with params := { ready.params with windowMode := w, brIndex := b } }

/-- A state with the given words pending. -/
def pending (s : State) (ws : List Word32) : State := { s with stream := ws }

/-- The payload BRV[j] = 0x11*j of 95_test_vectors.md. -/
def ramp : Payload := { p0 := 0x33221100#32, p1 := 0x77665544#32, p2 := 0xBBAA9988#32, p3 := 0xFFEEDDCC#32 }

/-- The transactions a command adds to the log. -/
def newEvents (i : Instr) (s : State) : List Event :=
  match exec i s with
  | .next t => t.log.drop s.log.length
  | .fault _ => []
  | .refused _ => []

/-- STATUS, cp and the number of transactions after a step. -/
def outcomeOf (s : State) : Option (Byte × Nat × Nat) :=
  match step s with
  | .next t => some (t.status, t.cp, t.log.length)
  | .fault _ => none
  | .refused _ => none

/-- One device register after a command. -/
def regAfter (i : Instr) (s : State) (a : RegAddr) : Option Byte :=
  match exec i s with
  | .next t => some (Memory.read t.dev a)
  | .fault _ => none
  | .refused _ => none

/-- Whether a step answers a next state. -/
def answers (s : State) : Bool :=
  match step s with
  | .next _ => true
  | .fault _ => false
  | .refused _ => false

/-! ### Well-formedness (30_encoding.md R89, R90) -/

theorem test_count_zero_illFormed : (Instr.setbrs 0#4 0#5 ramp).wellFormed = false := by decide
theorem test_count_seventeen_illFormed : (Instr.setbrs 0#4 17#5 ramp).wellFormed = false := by decide
theorem test_count_bounds_wellFormed :
    (Instr.setbrs 15#4 1#5 ramp).wellFormed = true ∧ (Instr.setbrs 15#4 16#5 ramp).wellFormed = true := by decide
theorem test_group_five_illFormed : (Instr.setrgb 0#8 0#8 0#8 5#3).wellFormed = false := by decide
theorem test_group_four_wellFormed : (Instr.setrgb 0#8 0#8 0#8 4#3).wellFormed = true := by decide

/-! ### Decoding words written out bit by bit (30_encoding.md R83 to R90, 95_test_vectors.md §2.1) -/

theorem test_decode_init : decode [0b00000000011100000001001100000001#32] = .ok (.init 0x13#8 0x70#7) := by rfl
theorem test_decode_sleep : decode [0b00000000000000000000000100000010#32] = .ok (.sleep true) := by rfl
theorem test_decode_allon : decode [0b00000000000000000000000000000011#32] = .ok .allon := by rfl
theorem test_decode_alloff : decode [0b00000000000000000000000000000100#32] = .ok .alloff := by rfl
theorem test_decode_setbits : decode [0b10100101101001010000000000000101#32] = .ok (.setbits 0xA5A5#16) := by rfl
theorem test_decode_setonmask : decode [0b10000000000000010000000000000110#32] = .ok (.setonmask 0x8001#16) := by rfl
theorem test_decode_setoffmask : decode [0b00000000000001100000000000000111#32] = .ok (.setoffmask 0x0006#16) := by rfl
theorem test_decode_setbr : decode [0b00000000000000001000000000101000#32] = .ok (.setbr 0x80#8 2#4) := by rfl
theorem test_decode_setbrall : decode [0b00000000000000001000000000001001#32] = .ok (.setbrall 0x80#8) := by rfl
theorem test_decode_setbrs :
    decode [0b00000000000000000000010100111010#32, 0x33221100#32, 0x77665544#32, 0xBBAA9988#32, 0xFFEEDDCC#32] =
      .ok (.setbrs 3#4 5#5 ramp) := by rfl
theorem test_decode_setrgb : decode [0b11111111100000000001000000011011#32] = .ok (.setrgb 0x10#8 0x80#8 0xFF#8 1#3) := by
  rfl
theorem test_payload_order : (allChannels.map (brv ramp)).map BitVec.toNat = (List.range 16).map (0x11 * ·) := by decide
theorem test_encode_setrgb : encode (.setrgb 1#8 2#8 3#8 4#3) = [0x0302014B#32] := by decide
theorem test_table_word_little_endian : decodeTableWord 32 0x00401501 = some (.init 0x15#8 0x40#7) := by decide

/-! ### Mode commands (95_test_vectors.md §2.2) -/

theorem test_init_log : newEvents (.init 0x13#8 0x70#7) fresh =
    [.A 0x70#7, .W 0x01#8 [0x13#8], .W 0x00#8 [0x21#8], .R 0x00#8 1 [0x21#8]] := by decide
theorem test_init_status_masked_drv :
    outcomeOf (pending fresh [0x00701301#32]) = some (0x03#8, 1, 4) ∧
      regAfter (.init 0xFF#8 0x7F#7) fresh 0x01#8 = some 0x17#8 := by decide
theorem test_sleep_enter : newEvents (.sleep true) ready = [.R 0x00#8 1 [0x21#8], .W 0x00#8 [0x31#8]] := by decide
theorem test_sleep_leave_carries_restart :
    newEvents (.sleep false) (readyMode1 0xB1#8) = [.R 0x00#8 1 [0xB1#8], .W 0x00#8 [0xA1#8]] := by decide

/-! ### Switching commands (95_test_vectors.md §2.3) -/

theorem test_allon : newEvents .allon ready = [.W 0xFA#8 [0x00#8, 0x10#8, 0x00#8, 0x00#8]] := by decide
theorem test_alloff_fans_out :
    regAfter .alloff ready 0x45#8 = some 0x10#8 ∧ regAfter .alloff ready 0xFD#8 = some 0x10#8 := by decide
theorem test_setbits_a5a5 : newEvents (.setbits 0xA5A5#16) ready =
    (List.range 16).map (fun n => Event.W (BitVec.ofNat 8 (4 * n + 6))
      (if n = 0 ∨ n = 2 ∨ n = 5 ∨ n = 7 ∨ n = 8 ∨ n = 10 ∨ n = 13 ∨ n = 15
        then [0x00#8, 0x10#8, 0x00#8, 0x00#8] else [0x00#8, 0x00#8, 0x00#8, 0x10#8])) := by decide
theorem test_setonmask : newEvents (.setonmask 0x8001#16) ready =
    [.W 0x06#8 [0x00#8, 0x10#8, 0x00#8, 0x00#8], .W 0x42#8 [0x00#8, 0x10#8, 0x00#8, 0x00#8]] := by decide
theorem test_setonmask_zero : outcomeOf (pending ready [0x00000006#32]) = some (0x03#8, 1, 1) := by decide
theorem test_setoffmask : newEvents (.setoffmask 0x0006#16) ready =
    [.W 0x0A#8 [0x00#8, 0x00#8, 0x00#8, 0x10#8], .W 0x0E#8 [0x00#8, 0x00#8, 0x00#8, 0x10#8]] := by decide

/-! ### Brightness commands (95_test_vectors.md §2.4) -/

theorem test_setbr : newEvents (.setbr 0x80#8 2#4) ready = [.W 0x0E#8 [0x00#8, 0x02#8, 0x00#8, 0x0A#8]] := by decide
theorem test_setbr_wraps : newEvents (.setbr 0xF0#8 15#4) ready = [.W 0x42#8 [0x00#8, 0x0F#8, 0x00#8, 0x0E#8]] := by decide
theorem test_setbrall : newEvents (.setbrall 0xFF#8) ready = [.W 0xFA#8 [0x00#8, 0x00#8, 0xF0#8, 0x0F#8]] := by decide
theorem test_setbrs_faithful : newEvents (.setbrs 3#4 5#5 ramp) ready =
    [.W 0x12#8 [0x00#8, 0x03#8, 0x30#8, 0x06#8], .W 0x16#8 [0x00#8, 0x04#8, 0x40#8, 0x08#8],
      .W 0x1A#8 [0x00#8, 0x05#8, 0x50#8, 0x0A#8], .W 0x1E#8 [0x00#8, 0x06#8, 0x60#8, 0x0C#8]] := by decide
theorem test_setbrs_corrected_relative :
    newEvents (.setbrs 14#4 4#5 ramp) (readyWindow .corrected .relative) =
      [.W 0x3E#8 [0x00#8, 0x0E#8, 0x00#8, 0x0E#8], .W 0x42#8 [0x00#8, 0x0F#8, 0x10#8, 0x00#8],
        .W 0x06#8 [0x00#8, 0x00#8, 0x20#8, 0x02#8], .W 0x0A#8 [0x00#8, 0x01#8, 0x30#8, 0x04#8]] := by decide
theorem test_setrgb : newEvents (.setrgb 0x10#8 0x80#8 0xFF#8 1#3) ready =
    [.W 0x12#8 [0x00#8, 0x03#8, 0x00#8, 0x04#8], .W 0x16#8 [0x00#8, 0x04#8, 0x00#8, 0x0C#8],
      .W 0x1A#8 [0x00#8, 0x05#8, 0xF0#8, 0x04#8]] := by decide
theorem test_setrgb_leaves_channel15 : regAfter (.setrgb 1#8 2#8 3#8 4#3) ready 0x43#8 = some 0x00#8 := by decide

/-! ### The other devices on the bus (70_reset_and_hazards.md R216, 20_memory.md R56) -/

theorem test_allCall_reaches_others : otherAfter (.setbr 0x80#8 2#4) (readyBus 0x70#7) 0 0x11#8 = some 0x0A#8 := by decide
theorem test_own_address_reaches_one :
    otherAfter (.setbr 0x80#8 2#4) (readyBus 0x42#7) 0 0x11#8 = some 0x00#8 ∧
      otherAfter (.setbr 0x80#8 2#4) (readyBus 0x42#7) 1 0x11#8 = some 0x0A#8 := by decide

/-! ### The host's issue (70_reset_and_hazards.md R222) -/

theorem test_issue_one_command :
    (ready.hostIssue [0x00000003#32]).stream = [0x00000003#32] ∧
      ((ready.hostIssue [0x00000003#32]).hostIssue [0x00000004#32]).stream = [0x00000003#32] ∧
      (ready.hostIssue [0x0000010A#32, 0#32, 0#32, 0#32, 0#32, 0#32]).stream = [] ∧
      (ready.hostIssue [0x00000003#32, 0x00000004#32]).stream = [] := by decide

/-! ### Faults (95_test_vectors.md §2.5): STATUS, cp and the log's length after the step -/

theorem test_fault_illegal_opcode :
    outcomeOf (pending ready [0x0000FFF0#32]) = some (0x17#8, 0, 1) ∧
      outcomeOf (pending fresh [0x00000000#32]) = some (0x14#8, 0, 0) ∧
      outcomeOf (pending ready [0x0000000C#32]) = some (0x17#8, 0, 1) := by decide
theorem test_fault_truncated :
    outcomeOf (pending ready [0x0000053A#32, 0#32, 0#32]) = some (0x27#8, 0, 1) ∧
      outcomeOf (pending ready [0x0000253A#32]) = some (0x27#8, 0, 1) := by decide
theorem test_fault_reserved_field :
    outcomeOf (pending ready [0x00000013#32]) = some (0x37#8, 0, 1) ∧
      outcomeOf (pending fresh [0x00F01301#32]) = some (0x34#8, 0, 0) ∧
      outcomeOf (pending ready [0x0000008B#32]) = some (0x37#8, 0, 1) := by decide
theorem test_fault_illegal_operand :
    outcomeOf (pending ready [0x0000005B#32]) = some (0x47#8, 0, 1) ∧
      outcomeOf (pending fresh [0x0000005B#32]) = some (0x44#8, 0, 0) ∧
      outcomeOf (pending ready [0x0000110A#32, 0#32, 0#32, 0#32, 0#32]) = some (0x47#8, 0, 1) := by decide
theorem test_fault_not_initialized : outcomeOf (pending fresh [0x0000F0F8#32]) = some (0x54#8, 0, 0) := by decide
theorem test_faulted_block_stops : answers { ready with flt := true, fcode := 5#4 } = false := by decide

/-! ### The first instruction after reset -/

theorem test_reset_then_init : answers (State.reset.withFetchWord 32 0x00701301) = true := by decide
theorem test_reset_then_setbrs_header : answers (State.reset.withFetchWord 32 0x0000010A) = true := by decide

/-! ### The assembler (30_encoding.md R95, R96) -/

theorem test_assemble_led_on : assemble (.ledOn 15) = some (.setonmask 0x8000#16) := by decide
theorem test_assemble_refuses_count_seventeen : assemble (.setbrs 0 17 (List.replicate 16 0)) = none := by decide

/-! ### Witnesses: for each obligation with hypotheses, states and operands that meet them -/

theorem witness_EncodeOfDecode : decode [0x00000003#32, 0xFFFFFFFF#32] = .ok .allon := by rfl
theorem witness_LengthFromOpcode_fits : decode [0x0000010A#32, 0#32, 0#32, 0#32, 0#32] =
    .ok (.setbrs 0#4 1#5 { p0 := 0#32, p1 := 0#32, p2 := 0#32, p3 := 0#32 }) := by rfl
theorem witness_LengthFromOpcode_short :
    (pending fresh [0x0000010A#32, 0#32, 0#32, 0#32]).flt = false ∧
      (pending fresh [0x0000010A#32, 0#32, 0#32, 0#32]).pendingWords = [0x0000010A#32, 0#32, 0#32, 0#32] ∧
      (0x0000010A#32).extractLsb' 0 4 = 0xA#4 ∧ [0#32, 0#32, 0#32].length < 4 := by decide
theorem witness_StepRunsDecoded :
    (pending ready [0x00000003#32]).flt = false ∧ (pending ready [0x00000003#32]).pendingWords ≠ [] ∧
      decode (pending ready [0x00000003#32]).pendingWords = .ok .allon := ⟨rfl, by decide, rfl⟩
theorem witness_IdleStepChangesNothing : ready.flt = false ∧ ready.stream.length ≤ ready.cp := by decide
theorem witness_PlacedWordIsRun : fresh.flt = false ∧ decodeTableWord 32 0x3 = some .allon := by decide
/-- One header for each branch of FaultPriority, at the edges where the branches meet. -/
theorem witness_FaultPriority :
    ready.flt = false ∧ fresh.flt = false ∧
    (pending ready [0x0000000C#32]).pendingWords = [0x0000000C#32] ∧
    (pending ready [0x0000000A#32, 0#32, 0#32, 0#32]).pendingWords = [0x0000000A#32, 0#32, 0#32, 0#32] ∧
    opField 0x00000000#32 = 0x0#4 ∧ 0xC ≤ (opField 0x0000000C#32).toNat ∧
    opField 0x0000000A#32 = 0xA#4 ∧ [0#32, 0#32, 0#32].length < 4 ∧
    opField 0x00000013#32 = 0x3#4 ∧ 0x00000013#32 &&& reservedBits (opField 0x00000013#32) ≠ 0#32 ∧
    opField 0x0000110A#32 = 0xA#4 ∧ 17 ≤ ((0x0000110A#32).extractLsb' 8 5).toNat ∧
    (0x0000000A#32).extractLsb' 8 5 = 0#5 ∧
    opField 0x0000005B#32 = 0xB#4 ∧ 5 ≤ ((0x0000005B#32).extractLsb' 4 3).toNat ∧
    opField 0x00000003#32 ≠ 0x1#4 ∧ fresh.cfg = false ∧
    opField 0x00000001#32 = 0x1#4 ∧ ((0x0000004B#32).extractLsb' 4 3).toNat = 4 ∧
    ((0x0000100A#32).extractLsb' 8 5).toNat = 16 := by decide
/-- A step that enters a fault: the hypotheses of FaultEntryIsPrecise. -/
theorem witness_FaultEntryIsPrecise :
    fresh.flt = false ∧
      step (pending fresh [0x00000003#32]) = .next ((pending fresh [0x00000003#32]).raiseFault .notInitialized) ∧
      ((pending fresh [0x00000003#32]).raiseFault .notInitialized).flt = true := ⟨rfl, rfl, rfl⟩
theorem witness_OnlyResetClearsFault : (fresh.raiseFault .illegalOpcode).flt = true := by decide
/-- A step that completes a command, one that faults and one that waits: the cases of CommandPointerAdvance. -/
theorem witness_CommandPointerAdvance :
    outcomeOf (pending ready [0x00000003#32]) = some (0x03#8, 1, 2) ∧
      outcomeOf (pending ready [0x0000010A#32, 0#32, 0#32, 0#32, 0#32]) = some (0x03#8, 5, 1) ∧
      outcomeOf (pending ready [0x0000000F#32]) = some (0x17#8, 0, 1) ∧
      outcomeOf ready = some (0x03#8, 0, 1) := by decide
theorem witness_ResetValues : fresh.blockReset.status = 0x00#8 ∧ ready.blockReset.dev = ready.dev := by decide
theorem witness_DevicePowerOnState : (Memory.read ready.devicePowerOn.dev 0x00#8).getLsbD 4 = true := by
  rw [State.devicePowerOn, Memory.read_ofFun]
  simp [powerOnByte, regMode1]
/-- A state that meets the invariant and answers a next state: StepKeepsInvariant and OutsideMovesKeepInvariant. -/
theorem witness_StepKeepsInvariant :
    (pending ready [0x00000003#32]).Inv ∧ answers (pending ready [0x00000003#32]) = true :=
  ⟨{ registersCanonical := by decide
     othersCanonical := fun d hd => by cases hd
     noFaultNoCode := fun _ => rfl
     faultHasCode := fun h => by cases h
     beforeInit := fun h => by cases h
     afterInit := fun _ => ⟨rfl, rfl⟩
     selectedIsAddr := rfl
     transactionsLegal := by decide
     sequencerIdle := ⟨rfl, rfl⟩
     cpInStream := by decide }, by decide⟩
theorem witness_LogOnlyGrows : answers (pending ready [0xFFFF0005#32]) = true := by decide
theorem witness_SimDeviceFollowsLog :
    (pending ready [0x00000102#32]).params.oracle = .sim ∧ answers (pending ready [0x00000102#32]) = true := by decide
theorem witness_DeviceCannotReachBlock :
    readyAny.params.oracle = .any ∧ (∀ drv addr, Instr.allon ≠ .init drv addr) ∧ ∀ e, Instr.allon ≠ .sleep e :=
  ⟨rfl, fun _ _ h => (by cases h), fun _ h => (by cases h)⟩
theorem witness_OnlyInitWritesAddr :
    (∀ drv addr, Instr.setbr 0x80#8 2#4 ≠ .init drv addr) ∧ ∃ t, exec (.setbr 0x80#8 2#4) ready = .next t :=
  ⟨fun _ _ h => (by cases h), _, rfl⟩
theorem witness_StartAddressesAndWidths : ready.cfg = true ∧ ∃ t, exec .allon ready = .next t := ⟨rfl, _, rfl⟩
theorem witness_NoBothFullFlags : ∃ t, exec .alloff ready = .next t ∧
    t.log = ready.log ++ [Event.W 0xFA#8 [0x00#8, 0x00#8, 0x00#8, 0x10#8]] := ⟨_, rfl, rfl⟩
theorem witness_InitCompletes :
    Memory.wf fresh.dev = true ∧ fresh.params.oracle = .sim := by decide
/-- The hypotheses of SleepCompletes, SleepRoundTrip and AutoIncrementKept. -/
theorem witness_SleepCompletes :
    ready.cfg = true ∧ Memory.wf ready.dev = true ∧ ready.params.oracle = .sim ∧
      (Memory.read ready.dev 0x00#8).getLsbD 5 = true ∧ answers (pending ready [0x00000102#32]) = true := by decide
theorem witness_SleepRoundTrip : ∃ t, exec (.init 0x13#8 0x70#7) fresh = .next t ∧ t.ok = true := ⟨_, rfl, rfl⟩
/-- The hypotheses of the completion statements of every command but INIT and SLEEP, and of ChannelBlockAddresses, EncoderBytes, EncoderDuty and SwitchTransactionCounts, on the simulated device. -/
theorem witness_CommandsComplete :
    ready.cfg = true ∧ Memory.wf ready.dev = true ∧ ready.params.oracle = .sim ∧
      ready.seq = [] ∧ ready.latch = 0x00#8 := by decide
theorem witness_SetbrsCompletes :
    (1 ≤ (1#5).toNat ∧ (1#5).toNat ≤ 16) ∧ (1 ≤ (16#5).toNat ∧ (16#5).toNat ≤ 16) ∧
      (readyWindow .faithful .absolute).params.brIndex = .absolute ∧
      (readyWindow .faithful .relative).params.brIndex = .relative := by decide
theorem witness_SetrgbCompletes : (4#3).toNat ≤ 4 ∧ (0#3).toNat ≤ 4 := by decide
theorem witness_NotInitializedFaults :
    fresh.cfg = false ∧ (Instr.setbrs 0#4 16#5 ramp).wellFormed = true ∧
      ∀ drv addr, Instr.setbrs 0#4 16#5 ramp ≠ .init drv addr := ⟨rfl, by decide, fun _ _ h => (by cases h)⟩
theorem witness_IllegalOperandFaults : (0#5).toNat = 0 ∧ 17 ≤ (17#5).toNat ∧ 5 ≤ (5#3).toNat := by decide
/-- A window that just fits and one that just wraps, at the edge where the cases of FaithfulWindow meet. -/
theorem witness_FaithfulWindow :
    ready.params.windowMode = .faithful ∧ (14#4).toNat + (2#5).toNat = 16 ∧
      (windowFaithful 14#4 2#5).map BitVec.toNat = [14] ∧ (14#4).toNat + (3#5).toNat = 17 ∧
      windowFaithful 14#4 3#5 = [] := by decide
theorem witness_CorrectedWindow :
    (readyWindow .corrected .relative).cfg = true ∧ (readyWindow .corrected .relative).params.windowMode = .corrected ∧
      (readyWindow .corrected .relative).params.brIndex = .relative ∧ (16#5).toNat = 16 := by decide
theorem witness_AssemblerRanges :
    (assemble (.init 255 127)).isSome = true ∧ (assemble (.init 256 127)).isSome = false ∧
      (assemble (.setbr 255 15)).isSome = true ∧ (assemble (.setbr 0 16)).isSome = false ∧
      (assemble (.setbrs 15 16 (List.replicate 16 255))).isSome = true ∧
      (assemble (.setrgb 255 255 255 4)).isSome = true ∧ (assemble (.setrgb 0 0 0 5)).isSome = false := by decide
theorem witness_AssemblerOperands :
    assemble (.setbrs 3 16 (List.replicate 15 0 ++ [7])) =
        some (.setbrs 3#4 16#5 { p0 := 0#32, p1 := 0#32, p2 := 0#32, p3 := 0x07000000#32 }) ∧
      assemble (.init 0x13 0x70) = some (.init 0x13#8 0x70#7) ∧ assemble (.sleep 1) = some (.sleep true) := by decide
/-- The clauses of IssuedCommandIsRun: a block that has taken every word, a short SETBRS, a faulted block, a pending command, words that are too many for each length of command, a block reset. -/
theorem witness_IssuedCommandIsRun :
    (ready.flt = false ∧ ready.cp = ready.stream.length) ∧
      (decode [0x00000003#32] = .ok .allon ∧ [0x00000003#32].length = instrWords .allon) ∧
      (0x0000010A#32).extractLsb' 0 4 = 0xA#4 ∧ (fresh.raiseFault .truncated).flt = true ∧
      (pending ready [0x3#32]).pendingWords ≠ [] ∧
      (if (0x00000003#32).extractLsb' 0 4 = 0xA#4 then 4 else 0) < [0#32].length ∧
      (if (0x0000010A#32).extractLsb' 0 4 = 0xA#4 then 4 else 0) < [0#32, 0#32, 0#32, 0#32, 0#32].length ∧
      (pending ready [0x3#32]).blockReset.stream = [] :=
  ⟨⟨rfl, rfl⟩, ⟨rfl, rfl⟩, by decide, rfl, by decide, by decide, by decide, rfl⟩
theorem witness_OtherDevicesKept : answers { pending ready [0x3#32] with others := (readyBus 0x70#7).others } = true := by
  decide
theorem witness_AssemblerExpansions : assemble (.ledOff 0) = assemble (.setoffmask 1) ∧ ready.cfg = true := by decide

end Sys2Proof.Tests
end

section
/-! The family 10_state.md: STATUS, device power-on, cp, ADDR and the machine's invariant. First the facts about the decoder, the blocks and the transactions, then what a step can answer, then the statements. -/

namespace Sys2Proof.Machine

/-! ### The length of a decoded command -/

theorem opWords_eq_ite_toNat (op : BitVec 4) : opWords op = if op.toNat = 0xA then 5 else 1 := by
  simp [opWords, ← BitVec.toNat_inj]

/-- The command a header names has the length OP gives (30_encoding.md R93). -/
theorem instrWords_of_fieldsOf {h : Word32} {rest : List Word32} {i : Instr} (hi : fieldsOf h rest = some i) :
    instrWords i = opWords (opField h) := by
  rw [opWords_eq_ite_toNat]
  unfold fieldsOf at hi
  split at hi <;> cases hi <;> simp [instrWords, *]

/-- A command decodes only when all its words are present (30_encoding.md R93). -/
theorem instrWords_le_of_decode {ws : List Word32} {i : Instr} (hd : decode ws = .ok i) :
    instrWords i ≤ ws.length := by
  cases ws with
  | nil => cases hd
  | cons h rest =>
    unfold decode at hd
    dsimp only at hd
    split at hd
    · cases hd
    · rename_i j hj
      split at hd
      · cases hd
      · rename_i hlen
        split at hd
        · cases hd
        · cases hd
          rw [instrWords_of_fieldsOf hj, List.length_cons]
          omega

/-- A command that decodes ends inside the host's stream. -/
theorem cp_add_instrWords_le {s : State} {i : Instr} (hcp : s.cp ≤ s.stream.length)
    (hd : decode s.pendingWords = .ok i) : s.cp + instrWords i ≤ s.stream.length := by
  have h := instrWords_le_of_decode hd
  rw [State.pendingWords, List.length_drop] at h
  omega

/-! ### The blocks a command writes are legal -/

theorem blockLegal_enc (b : Byte) (c : Chan) : blockLegal (enc b c) = true := by
  have hOn : c.setWidth 8 &&& 0xE0#8 = 0#8 ∧ (c.setWidth 8).getLsbD 4 = false := by
    revert c; decide
  have hOff (x : Byte) : x &&& 0x0F#8 &&& 0xE0#8 = 0#8 := by
    rw [BitVec.and_assoc, show 0x0F#8 &&& 0xE0#8 = 0#8 from rfl, BitVec.and_zero]
  simp [blockLegal, fullOn, enc, hOn, hOff]

/-- EncAll(b) is Enc(b, 0) (42_brightness.md R152). -/
theorem encAll_eq_enc (b : Byte) : encAll b = enc b 0#4 := by
  simp [encAll, enc]

theorem blockLegal_encAll (b : Byte) : blockLegal (encAll b) = true :=
  encAll_eq_enc b ▸ blockLegal_enc b 0#4

theorem blockLegal_onBlk : blockLegal onBlk = true := by decide

theorem blockLegal_offBlk : blockLegal offBlk = true := by decide

theorem blockLegal_patternBlk (bit : Bool) : blockLegal (patternBlk bit) = true := by
  cases bit
  · exact blockLegal_offBlk
  · exact blockLegal_onBlk

/-! ### The transactions of a command -/

/-- The forms of the transactions a command other than INIT issues (20_memory.md R53, R61). -/
inductive CommandOp : MicroOp → Prop where
  | channel (c : Chan) (b : ChannelBlock) (h : blockLegal b = true) : CommandOp (channelWrite c b)
  | allLed (b : ChannelBlock) (h : blockLegal b = true) : CommandOp (allLedWrite b)
  | readMode1 : CommandOp (.read regMode1)
  | writeSleep (e : Bool) : CommandOp (.writeSleep e)

theorem commandOp_of_mem_map {cs : List Chan} {block : Chan → ChannelBlock}
    (hb : ∀ c, blockLegal (block c) = true) :
    ∀ op ∈ cs.map (fun c => channelWrite c (block c)), CommandOp op := by
  intro op h
  obtain ⟨c, -, rfl⟩ := List.mem_map.1 h
  exact .channel c _ (hb c)

theorem commandOp_of_mem_allLed {b : ChannelBlock} (hb : blockLegal b = true) :
    ∀ op ∈ [allLedWrite b], CommandOp op := by
  simpa using CommandOp.allLed b hb

/-- Every command but INIT issues transactions of these forms only. -/
theorem commandOp_of_mem_commandOps (p : Params) {i : Instr} (hi : ∀ drv addr, i ≠ .init drv addr) :
    ∀ op ∈ commandOps p i, CommandOp op := by
  cases i with
  | init drv addr => exact absurd rfl (hi drv addr)
  | sleep e => simpa [commandOps, sleepOps] using ⟨CommandOp.readMode1, CommandOp.writeSleep e⟩
  | allon => exact commandOp_of_mem_allLed blockLegal_onBlk
  | alloff => exact commandOp_of_mem_allLed blockLegal_offBlk
  | setbits mask => exact commandOp_of_mem_map fun _ => blockLegal_patternBlk _
  | setonmask mask => exact commandOp_of_mem_map fun _ => blockLegal_onBlk
  | setoffmask mask => exact commandOp_of_mem_map fun _ => blockLegal_offBlk
  | setbr br ch => simpa [commandOps] using CommandOp.channel ch _ (blockLegal_enc br ch)
  | setbrall br => exact commandOp_of_mem_allLed (blockLegal_encAll br)
  | setbrs first count payload => exact commandOp_of_mem_map fun c => blockLegal_enc _ c
  | setrgb v0 v1 v2 group =>
    simpa [commandOps, setrgbOps] using
      ⟨CommandOp.channel _ _ (blockLegal_enc v0 _), CommandOp.channel _ _ (blockLegal_enc v1 _),
        CommandOp.channel _ _ (blockLegal_enc v2 _)⟩

/-- The event a transaction logs when it is issued in state `s` (20_memory.md R57). -/
def MicroOp.event (s : State) (op : MicroOp) : Event :=
  match op with
  | .selectDevice d => .A d
  | .write a bytes => .W a bytes
  | .initWrite a bytes => .W a bytes
  | .read a => .R a 1 [deviceRead s.params s.draws a s.dev]
  | .writeSleep e => .W regMode1 [sleepByte e s.latch]

theorem State.issue_log_event (s : State) (op : MicroOp) : (s.issue op).log = s.log ++ [op.event s] := by
  cases op <;> rfl

theorem State.issue_busAddr (s : State) (op : MicroOp) :
    (s.issue op).busAddr = selectedAfter s.busAddr (op.event s) := by
  cases op <;> rfl

theorem blockStart_led (c : Chan) : blockStart (led c) = true := by
  simp only [blockStart, Bool.or_eq_true, List.any_eq_true, decide_eq_true_eq]
  exact .inr ⟨c, mem_allChannels c, rfl⟩

/-- A transaction of one of these forms is logged as a legal one, in every state. -/
theorem CommandOp.event_legal {op : MicroOp} (h : CommandOp op) (s : State) : eventLegal (op.event s) = true := by
  cases h with
  | channel c b hb =>
    change (blockStart (led c) && blockLegal b) = true
    rw [blockStart_led, hb, Bool.and_self]
  | allLed b hb =>
    change (blockStart regAllLed && blockLegal b) = true
    rw [hb]
    rfl
  | readMode1 => rfl
  | writeSleep e => rfl

/-- None of these forms selects a device. -/
theorem CommandOp.selectedAfter_event {op : MicroOp} (h : CommandOp op) (s : State) (d : Option BusAddr) :
    selectedAfter d (op.event s) = d := by
  cases h <;> rfl

/-- INIT's transactions are logged as legal ones. -/
theorem initOps_eventLegal (drv : Byte) (addr : BusAddr) :
    ∀ op ∈ initOps drv addr, ∀ s : State, eventLegal (op.event s) = true := by
  simp [initOps, MicroOp.event, eventLegal]

/-! ### Running a list of transactions -/

theorem lastSelected_append (log : List Event) (e : Event) :
    lastSelected (log ++ [e]) = selectedAfter (lastSelected log) e := by
  simp [lastSelected]

/-- Legal transactions added to a log of legal ones. -/
theorem State.issueAll_eventsLegal {ops : List MicroOp} (hops : ∀ op ∈ ops, ∀ u : State, eventLegal (op.event u) = true)
    {s : State} (hlog : ∀ e ∈ s.log, eventLegal e = true) :
    ∀ e ∈ (ops.foldl State.issue s).log, eventLegal e = true := by
  induction ops generalizing s with
  | nil => exact hlog
  | cons op rest ih =>
    rw [List.forall_mem_cons] at hops
    refine ih hops.2 ?_
    rw [State.issue_log_event, List.forall_mem_append]
    exact ⟨hlog, by simpa using hops.1 s⟩

/-- The transactions of a command other than INIT leave the transport at its address (20_memory.md R56). -/
theorem State.issueAll_address {ops : List MicroOp} (hops : ∀ op ∈ ops, CommandOp op) (s : State) :
    (ops.foldl State.issue s).busAddr = s.busAddr ∧
      lastSelected (ops.foldl State.issue s).log = lastSelected s.log := by
  induction ops generalizing s with
  | nil => exact ⟨rfl, rfl⟩
  | cons op rest ih =>
    rw [List.forall_mem_cons] at hops
    obtain ⟨hbus, hlast⟩ := ih hops.2 (s.issue op)
    rw [List.foldl_cons, hbus, hlast, State.issue_busAddr, State.issue_log_event, lastSelected_append]
    exact ⟨hops.1.selectedAfter_event s _, hops.1.selectedAfter_event s _⟩

/-- A sequencer run leaves the block's own fields, the stream and the parameters as they were. -/
@[simp] theorem State.runSeq_fields (s : State) (ops : List MicroOp) :
    (s.runSeq ops).addr = s.addr ∧ (s.runSeq ops).cfg = s.cfg ∧ (s.runSeq ops).ok = s.ok ∧
      (s.runSeq ops).flt = s.flt ∧ (s.runSeq ops).fcode = s.fcode ∧ (s.runSeq ops).cp = s.cp ∧
      (s.runSeq ops).stream = s.stream ∧ (s.runSeq ops).params = s.params := by
  rw [State.runSeq_eq]
  exact State.issueAll_fields ops s

/-- The transactions of a command other than INIT leave the transport at its address, also as the log has it. -/
theorem State.runSeq_commandOps_address (s : State) (p : Params) {i : Instr} (hi : ∀ drv addr, i ≠ .init drv addr) :
    (s.runSeq (commandOps p i)).busAddr = s.busAddr ∧
      lastSelected (s.runSeq (commandOps p i)).log = lastSelected s.log := by
  rw [State.runSeq_eq]
  exact State.issueAll_address (commandOp_of_mem_commandOps p hi) s

/-- INIT's transactions, as the log has them (40_mode.md R110). -/
theorem State.runSeq_initOps_log (s : State) (drv : Byte) (addr : BusAddr) :
    ∃ v, (s.runSeq (initOps drv addr)).log =
      s.log ++ [.A addr] ++ [.W regMode2 [mode2Init drv]] ++ [.W regMode1 [mode1Init]] ++ [.R regMode1 1 [v]] :=
  ⟨_, rfl⟩

/-- INIT's transactions leave the transport at INIT's address, also as the log has it (20_memory.md R56). -/
theorem State.runSeq_initOps_address (s : State) (drv : Byte) (addr : BusAddr) :
    (s.runSeq (initOps drv addr)).busAddr = some addr ∧
      lastSelected (s.runSeq (initOps drv addr)).log = some addr := by
  obtain ⟨v, hlog⟩ := s.runSeq_initOps_log drv addr
  refine ⟨rfl, ?_⟩
  simp only [hlog, lastSelected_append, selectedAfter]

/-- A run of legal transactions keeps every register file canonical and the log legal. -/
theorem State.runSeq_devices_log {s : State} {ops : List MicroOp}
    (hops : ∀ op ∈ ops, ∀ u : State, eventLegal (op.event u) = true) (hdev : Memory.wf s.dev = true)
    (hothers : ∀ d ∈ s.others, Memory.wf d.regs = true) (hlog : ∀ e ∈ s.log, eventLegal e = true) :
    Memory.wf (s.runSeq ops).dev = true ∧ (∀ d ∈ (s.runSeq ops).others, Memory.wf d.regs = true) ∧
      ∀ e ∈ (s.runSeq ops).log, eventLegal e = true := by
  rw [State.runSeq_eq]
  exact ⟨State.issueAll_wf ops hdev, State.issueAll_othersWf ops hothers, State.issueAll_eventsLegal hops hlog⟩

/-! ### What a step can answer -/

theorem exec_next {i : Instr} {s t : State} (h : exec i s = .next t) : ExecOutcome i s (.next t) :=
  h ▸ exec_outcome i s

/-- A step that answers a next state: the block is not faulted, and it waits, enters a decoder's fault, or executes the decoded command. -/
theorem step_next {s t : State} (h : step s = .next t) : s.flt = false ∧
    ((s.pendingWords = [] ∧ t = s) ∨
      (s.pendingWords ≠ [] ∧ ∃ c, decode s.pendingWords = .error c ∧ t = s.raiseFault c) ∨
      (s.pendingWords ≠ [] ∧ ∃ i, decode s.pendingWords = .ok i ∧ ExecOutcome i s (.next t))) := by
  have ho := step_outcome s
  generalize step s = o at h ho
  cases ho with
  | faulted hf => cases h
  | idle hf hw => cases h; exact ⟨hf, .inl ⟨hw, rfl⟩⟩
  | undecoded hf hw c hd => cases h; exact ⟨hf, .inr (.inl ⟨hw, c, hd, rfl⟩)⟩
  | executed hf hw i hd => exact ⟨hf, .inr (.inr ⟨hw, i, hd, exec_next h⟩)⟩

/-! ### The invariant -/

theorem faultCodeBits_range (c : FaultCode) : 1 ≤ (faultCodeBits c).toNat ∧ (faultCodeBits c).toNat ≤ 5 := by
  cases c <;> decide

/-- Fault entry keeps the invariant: it writes FLT and one of the five codes (60_exceptions.md R183). -/
theorem State.Inv.raiseFault {s : State} (hs : s.Inv) (c : FaultCode) : (s.raiseFault c).Inv :=
  { hs with
    noFaultNoCode := fun h => by cases h
    faultHasCode := fun _ => faultCodeBits_range c }

/-- A command other than INIT that completes keeps the invariant. -/
theorem State.Inv.commandCompletes {s : State} (hs : s.Inv) {i : Instr} (hi : ∀ drv addr, i ≠ .init drv addr)
    (hcfg : s.cfg = true) (hd : decode s.pendingWords = .ok i) :
    ((s.runSeq (commandOps s.params i)).complete (instrWords i)).Inv := by
  obtain ⟨hdev, hothers, hlog⟩ := State.runSeq_devices_log
    (fun op hop u => (commandOp_of_mem_commandOps s.params hi op hop).event_legal u)
    hs.registersCanonical hs.othersCanonical hs.transactionsLegal
  obtain ⟨hbus, hlast⟩ := s.runSeq_commandOps_address s.params hi
  exact
    { registersCanonical := hdev
      othersCanonical := hothers
      noFaultNoCode := by simpa using hs.noFaultNoCode
      faultHasCode := by simpa using hs.faultHasCode
      beforeInit := by simp [hcfg]
      afterInit := by simpa [hbus] using hs.afterInit
      selectedIsAddr := by simpa [hlast] using hs.selectedIsAddr
      transactionsLegal := hlog
      sequencerIdle := ⟨rfl, rfl⟩
      cpInStream := by simpa using cp_add_instrWords_le hs.cpInStream hd }

/-- INIT keeps the invariant: it makes its operand ADDR and the address the transport talks to (40_mode.md R110). -/
theorem State.Inv.initCompletes {s : State} (hs : s.Inv) {drv : Byte} {addr : BusAddr}
    (hd : decode s.pendingWords = .ok (.init drv addr)) :
    ((({ s with addr := some addr }).runSeq (initOps drv addr)).configure.complete 1).Inv := by
  obtain ⟨hdev, hothers, hlog⟩ := State.runSeq_devices_log (s := { s with addr := some addr })
    (initOps_eventLegal drv addr) hs.registersCanonical hs.othersCanonical hs.transactionsLegal
  obtain ⟨hbus, hlast⟩ := State.runSeq_initOps_address { s with addr := some addr } drv addr
  exact
    { registersCanonical := deviceConfirm_wf _ _ _ hdev
      othersCanonical := othersConfirm_wf _ _ _ _ hothers
      noFaultNoCode := by simpa using hs.noFaultNoCode
      faultHasCode := by simpa using hs.faultHasCode
      beforeInit := by simp
      afterInit := by simp [hbus]
      selectedIsAddr := by simpa using hlast
      transactionsLegal := hlog
      sequencerIdle := ⟨rfl, rfl⟩
      cpInStream := by simpa [instrWords] using cp_add_instrWords_le hs.cpInStream hd }

/-- A command keeps the invariant, whatever its outcome. -/
theorem State.Inv.execOutcome {s t : State} (hs : s.Inv) {i : Instr} (hd : decode s.pendingWords = .ok i)
    (he : ExecOutcome i s (.next t)) : t.Inv := by
  cases he with
  | init drv addr h => subst h; exact hs.initCompletes hd
  | illegalOperand h => exact hs.raiseFault _
  | notInitialized h hi hc => exact hs.raiseFault _
  | completes h hi hc => exact hs.commandCompletes hi hc hd

/-- Settles O17: a step waits, enters a fault or runs a command, and each keeps the invariant. -/
theorem stepKeepsInvariant : Obligations.StepKeepsInvariant := by
  intro s t hs h
  obtain ⟨-, ⟨-, rfl⟩ | ⟨-, c, -, rfl⟩ | ⟨-, i, hd, he⟩⟩ := step_next h
  · exact hs
  · exact hs.raiseFault c
  · exact hs.execOutcome hd he

/-! ### cp and ADDR -/

/-- A command enters a fault and leaves cp, or completes and moves cp past its words (10_state.md R25). -/
theorem ExecOutcome.cp_cases {i : Instr} {s t : State} (he : ExecOutcome i s (.next t)) :
    (t.flt = true ∧ t.cp = s.cp) ∨ (t.flt = s.flt ∧ t.cp = s.cp + instrWords i) := by
  cases he with
  | init drv addr h => subst h; right; simp [instrWords]
  | illegalOperand h => exact .inl ⟨rfl, rfl⟩
  | notInitialized h hi hc => exact .inl ⟨rfl, rfl⟩
  | completes h hi hc => right; simp

/-- Settles O14: a wait and a fault leave cp, a command that completes moves it by its length. -/
theorem commandPointerAdvance : Obligations.CommandPointerAdvance := by
  intro s t hf h
  obtain ⟨-, ⟨hw, rfl⟩ | ⟨-, c, -, rfl⟩ | ⟨-, i, hd, he⟩⟩ := step_next h
  · exact .inr (.inl ⟨hf, hw, rfl⟩)
  · exact .inl ⟨rfl, rfl⟩
  · obtain hfault | ⟨hflt, hcp⟩ := he.cp_cases
    · exact .inl hfault
    · exact .inr (.inr ⟨hflt.trans hf, i, hd, by rw [hcp]; cases i <;> rfl⟩)

/-- A command other than INIT keeps ADDR and the transport's address, whatever its outcome (10_state.md R22). -/
theorem ExecOutcome.address_unchanged {i : Instr} {s t : State} (hi : ∀ drv addr, i ≠ .init drv addr)
    (he : ExecOutcome i s (.next t)) : t.addr = s.addr ∧ t.busAddr = s.busAddr := by
  cases he with
  | init drv addr h => exact absurd h (hi drv addr)
  | illegalOperand h => exact ⟨rfl, rfl⟩
  | notInitialized h hi hc => exact ⟨rfl, rfl⟩
  | completes h hi hc =>
    obtain ⟨hbus, -⟩ := s.runSeq_commandOps_address s.params hi
    simp [hbus]

/-- Settles O23: the other commands select no device, and INIT selects its operand before anything else. -/
theorem onlyInitWritesAddr : Obligations.OnlyInitWritesAddr := by
  refine ⟨fun i s t hi h => (exec_next h).address_unchanged hi, fun drv addr s => ⟨_, rfl, ?_, ?_, ?_⟩⟩
  · simp
  · exact (State.runSeq_initOps_address { s with addr := some addr } drv addr).1
  · obtain ⟨v, hlog⟩ := State.runSeq_initOps_log { s with addr := some addr } drv addr
    simp [hlog]

/-! ### STATUS and device power-on -/

/-- STATUS as FCODE with its low bits put behind it one by one (10_state.md R23). -/
theorem statusByte_eq_concat (cfg ok flt : Bool) (fcode : BitVec 4) :
    statusByte cfg ok flt fcode = (((fcode.concat false).concat flt).concat ok).concat cfg := rfl

/-- Settles O7: the low four bits are those put behind FCODE, the others are FCODE's. -/
theorem statusLayout : Obligations.StatusLayout := by
  intro s
  simp only [State.status, statusByte_eq_concat, BitVec.getLsbD_concat_succ, BitVec.getLsbD_concat_zero, true_and]
  apply BitVec.eq_of_getLsbD_eq
  intro i hi
  simp only [BitVec.getLsbD_extractLsb', Nat.add_comm 4 i, BitVec.getLsbD_concat_succ, hi, decide_true, Bool.true_and]

/-- The device's registers after power-on: MODE1 is DEV_POR's with bit 4 set, every other register DEV_POR's (10_state.md R35). -/
theorem read_powerOn (a : RegAddr) :
    Memory.read (Memory.ofFun powerOnByte) a =
      if a = 0x00#8 then Config.devPor a ||| 0x10#8 else Config.devPor a :=
  Memory.read_ofFun powerOnByte a

/-- Settles O16: State.reset and a device power-on fill the register file with the power-on bytes. -/
theorem devicePowerOnState : Obligations.DevicePowerOnState := by
  refine ⟨fun s hs => ?_, fun _ => rfl, fun _ => rfl⟩
  have hdev : s.dev = Memory.ofFun powerOnByte := by
    obtain rfl | ⟨u, rfl⟩ := hs
    · rfl
    · rfl
  have hmode1 : Memory.read s.dev 0x00#8 = Config.devPor 0x00#8 ||| 0x10#8 := by
    rw [hdev, read_powerOn, if_pos rfl]
  refine ⟨hmode1, ?_, fun a ha => ?_⟩
  · simp [hmode1]
  · rw [hdev, read_powerOn, if_neg ha]

end Sys2Proof.Machine
end

section
/-! The family 20_memory.md: the event log, the simulated device behind it, the channel blocks' addresses. First which transactions a command issues, then what a run of transactions logs and does to the devices, then the statements. -/

namespace Sys2Proof.Machine

/-! ### How many transactions a command issues -/

theorem allChannels_length : allChannels.length = 16 := rfl

theorem maskChannels_length_le (mask : BitVec 16) : (maskChannels mask).length ≤ 16 :=
  List.length_filter_le _ allChannels

/-- A window with a legal COUNT has at most 16 channels (42_brightness.md R156, R157). -/
theorem windowChannels_length_le (mode : WindowMode) (first : Chan) {count : BitVec 5} (h : count.toNat ≤ 16) :
    (windowChannels mode first count).length ≤ 16 := by
  cases mode with
  | faithful =>
    simp only [windowChannels, windowFaithful, List.length_map, List.length_range']
    omega
  | corrected => simpa [windowChannels, windowCorrected] using h

/-- A command with legal operands issues at most 16 transactions (70_reset_and_hazards.md R221). -/
theorem commandOps_length_le (p : Params) {i : Instr} (h : i.wellFormed = true) : (commandOps p i).length ≤ 16 := by
  cases i with
  | init drv addr => simp [commandOps, initOps]
  | sleep e => simp [commandOps, sleepOps]
  | allon => simp [commandOps]
  | alloff => simp [commandOps]
  | setbits mask => simp [commandOps, setbitsOps, allChannels_length]
  | setonmask mask => simpa [commandOps, maskOps] using maskChannels_length_le mask
  | setoffmask mask => simpa [commandOps, maskOps] using maskChannels_length_le mask
  | setbr br ch => simp [commandOps]
  | setbrall br => simp [commandOps]
  | setbrs first count payload =>
    simp only [Instr.wellFormed, Bool.and_eq_true, decide_eq_true_eq] at h
    simpa [commandOps, setbrsOps] using windowChannels_length_le p.windowMode first h.2
  | setrgb v0 v1 v2 group => simp [commandOps, setrgbOps]

/-! ### The transactions of the commands that only write blocks -/

/-- A 4-byte write of a channel's block or of ALL_LED (20_memory.md R61). -/
inductive BlockWrite : MicroOp → Prop where
  | channel (c : Chan) (b : ChannelBlock) : BlockWrite (channelWrite c b)
  | allLed (b : ChannelBlock) : BlockWrite (allLedWrite b)

theorem blockWrite_of_mem_map (cs : List Chan) (block : Chan → ChannelBlock) :
    ∀ op ∈ cs.map (fun c => channelWrite c (block c)), BlockWrite op := by
  intro op h
  obtain ⟨c, -, rfl⟩ := List.mem_map.1 h
  exact .channel c _

theorem blockWrite_of_mem_allLed (b : ChannelBlock) : ∀ op ∈ [allLedWrite b], BlockWrite op := by
  simpa using BlockWrite.allLed b

/-- Every command but INIT and SLEEP issues block writes only. -/
theorem blockWrite_of_mem_commandOps (p : Params) {i : Instr} (hi : ∀ drv addr, i ≠ .init drv addr)
    (hs : ∀ e, i ≠ .sleep e) : ∀ op ∈ commandOps p i, BlockWrite op := by
  cases i with
  | init drv addr => exact absurd rfl (hi drv addr)
  | sleep e => exact absurd rfl (hs e)
  | allon => exact blockWrite_of_mem_allLed _
  | alloff => exact blockWrite_of_mem_allLed _
  | setbits mask => exact blockWrite_of_mem_map _ _
  | setonmask mask => exact blockWrite_of_mem_map _ _
  | setoffmask mask => exact blockWrite_of_mem_map _ _
  | setbr br ch => exact blockWrite_of_mem_map [ch] (enc br)
  | setbrall br => exact blockWrite_of_mem_allLed _
  | setbrs first count payload => exact blockWrite_of_mem_map _ _
  | setrgb v0 v1 v2 group =>
    simpa [commandOps, setrgbOps] using
      ⟨BlockWrite.channel _ (enc v0 _), BlockWrite.channel _ (enc v1 _), BlockWrite.channel _ (enc v2 _)⟩

theorem BlockWrite.ne_read {op : MicroOp} (h : BlockWrite op) (a : RegAddr) : op ≠ .read a := by
  cases h <;> simp [channelWrite, allLedWrite]

/-! ### The events of a run of transactions -/

@[simp] theorem State.issue_params (s : State) (op : MicroOp) : (s.issue op).params = s.params := by
  cases op <;> rfl

/-- The events a list of transactions logs when it is issued from state `s`, in order (20_memory.md R57, R65). -/
def State.eventsOf (s : State) (ops : List MicroOp) : List Event :=
  match ops with
  | [] => []
  | op :: rest => op.event s :: (s.issue op).eventsOf rest

@[simp] theorem State.eventsOf_length (s : State) (ops : List MicroOp) : (s.eventsOf ops).length = ops.length := by
  induction ops generalizing s with
  | nil => rfl
  | cons op rest ih => simp [State.eventsOf, ih]

theorem State.eventsOf_legal {ops : List MicroOp} (hops : ∀ op ∈ ops, ∀ u : State, eventLegal (op.event u) = true)
    (s : State) : ∀ e ∈ s.eventsOf ops, eventLegal e = true := by
  induction ops generalizing s with
  | nil => simp [State.eventsOf]
  | cons op rest ih =>
    rw [List.forall_mem_cons] at hops
    exact List.forall_mem_cons.2 ⟨hops.1 s, ih hops.2 _⟩

/-- A sequencer run appends exactly its events to the log. -/
theorem State.runSeq_log (s : State) (ops : List MicroOp) : (s.runSeq ops).log = s.log ++ s.eventsOf ops := by
  rw [State.runSeq_eq]
  induction ops generalizing s with
  | nil => simp [State.eventsOf]
  | cons op rest ih =>
    simpa [State.eventsOf, State.issue_log_event] using ih (s.issue op)

/-- On the simulated bus a transaction does to the device what the simulated device makes of its event (20_memory.md R67). -/
theorem State.issue_dev_sim {s : State} (ho : s.params.oracle = .sim) (op : MicroOp) :
    (s.issue op).dev = simReact s.dev (op.event s) := by
  cases op <;> simp [State.issue, MicroOp.event, simReact, deviceSelect, deviceWrite, ho]

/-- On the simulated bus a run leaves the device replayed over the run's events. -/
theorem State.runSeq_dev_sim {s : State} (ho : s.params.oracle = .sim) (ops : List MicroOp) :
    (s.runSeq ops).dev = simReplay s.dev (s.eventsOf ops) := by
  rw [State.runSeq_eq]
  induction ops generalizing s with
  | nil => rfl
  | cons op rest ih =>
    simpa [State.eventsOf, simReplay, State.issue_dev_sim ho] using ih (s := s.issue op) (by simpa using ho)

/-- On the simulated bus every read of a run is answered with the register the device holds then. -/
theorem State.simAnswers_eventsOf {s : State} (ho : s.params.oracle = .sim) (ops : List MicroOp) :
    simAnswers s.dev (s.eventsOf ops) := by
  induction ops generalizing s with
  | nil => trivial
  | cons op rest ih =>
    refine ⟨?_, State.issue_dev_sim ho op ▸ ih (by simpa using ho)⟩
    cases op <;> simp [MicroOp.event, deviceRead, ho]

/-! ### What a step adds to the log -/

/-- From `s` to `t` exactly the events `new` are logged: at most 16, each a legal transaction, and under the oracle `sim` the device is replayed over them and answered their reads. -/
structure Transacts (s t : State) (new : List Event) : Prop where
  log_eq : t.log = s.log ++ new
  length_le : new.length ≤ 16
  legal : ∀ e ∈ new, eventLegal e = true
  sim_dev : s.params.oracle = .sim → t.dev = simReplay s.dev new
  sim_answers : s.params.oracle = .sim → simAnswers s.dev new

/-- A wait and a fault entry add nothing to the log and change nothing of the device. -/
theorem transacts_nil {s t : State} (hlog : t.log = s.log) (hdev : t.dev = s.dev) : Transacts s t [] where
  log_eq := by simp [hlog]
  length_le := by simp
  legal := by simp
  sim_dev _ := hdev
  sim_answers _ := trivial

/-- A run of at most 16 legal transactions adds their events to the log. -/
theorem State.runSeq_transacts (s : State) {ops : List MicroOp} (hlen : ops.length ≤ 16)
    (hops : ∀ op ∈ ops, ∀ u : State, eventLegal (op.event u) = true) :
    Transacts s (s.runSeq ops) (s.eventsOf ops) where
  log_eq := s.runSeq_log ops
  length_le := by simpa using hlen
  legal := s.eventsOf_legal hops
  sim_dev ho := State.runSeq_dev_sim ho ops
  sim_answers ho := State.simAnswers_eventsOf ho ops

/-- INIT's four transactions, with the verdict that follows them. -/
theorem init_transacts (s : State) (drv : Byte) (addr : BusAddr) :
    ∃ new, Transacts s ((({ s with addr := some addr }).runSeq (initOps drv addr)).configure.complete 1) new := by
  have h := ({ s with addr := some addr } : State).runSeq_transacts (ops := initOps drv addr) (by simp [initOps])
    (initOps_eventLegal drv addr)
  exact ⟨_, { h with sim_dev := fun ho => (deviceConfirm_sim ho _ _ _).trans (h.sim_dev ho) }⟩

/-- What a command adds to the log, whatever its outcome. -/
theorem ExecOutcome.transacts {i : Instr} {s t : State} (he : ExecOutcome i s (.next t)) :
    ∃ new, Transacts s t new := by
  cases he with
  | init drv addr h => exact init_transacts s drv addr
  | illegalOperand h => exact ⟨[], transacts_nil rfl rfl⟩
  | notInitialized h hi hc => exact ⟨[], transacts_nil rfl rfl⟩
  | completes h hi hc =>
    have hrun := s.runSeq_transacts (commandOps_length_le s.params h) fun op hop =>
      (commandOp_of_mem_commandOps s.params hi op hop).event_legal
    exact ⟨_, { hrun with }⟩

/-- What a step adds to the log. -/
theorem step_transacts {s t : State} (h : step s = .next t) : ∃ new, Transacts s t new := by
  obtain ⟨-, ⟨-, rfl⟩ | ⟨-, c, -, rfl⟩ | ⟨-, i, -, he⟩⟩ := step_next h
  · exact ⟨[], transacts_nil rfl rfl⟩
  · exact ⟨[], transacts_nil rfl rfl⟩
  · exact he.transacts

/-- Settles O21: the events a step adds are those its transactions log, and each acts on the device as it does on the simulated one. -/
theorem simDeviceFollowsLog : Obligations.SimDeviceFollowsLog := by
  intro s t ho h
  obtain ⟨new, hnew⟩ := step_transacts h
  exact ⟨new, hnew.log_eq, hnew.sim_dev ho, hnew.sim_answers ho⟩

/-- Settles O20: a command issues at most 16 transactions, each one event of the log. -/
theorem logOnlyGrows : Obligations.LogOnlyGrows := by
  intro s t h
  obtain ⟨new, hnew⟩ := step_transacts h
  exact ⟨new, hnew.log_eq, hnew.length_le⟩

/-! ### The devices' contents and the block -/

/-- The two states are equal but for the contents of the devices, the driven one and the others on the bus. -/
def SameButDevices (s u : State) : Prop := ∃ m ds, u = { s with dev := m, others := ds }

/-- A transaction that is no read, and any transaction under the oracle `any`, keeps two states equal but for the devices: a read is the one way from a device into the block (20_memory.md R58, R66). -/
theorem SameButDevices.issue {s u : State} (h : SameButDevices s u) {op : MicroOp}
    (hop : s.params.oracle = .any ∨ ∀ a, op ≠ .read a) : SameButDevices (s.issue op) (u.issue op) := by
  obtain ⟨m, ds, rfl⟩ := h
  cases op with
  | selectDevice d => exact ⟨_, _, rfl⟩
  | write a bytes => exact ⟨_, _, rfl⟩
  | initWrite a bytes => exact ⟨_, _, rfl⟩
  | writeSleep e => exact ⟨_, _, rfl⟩
  | read a =>
    have ho : s.params.oracle = .any := hop.resolve_right fun h => h a rfl
    exact ⟨m, ds, by simp [State.issue, State.memRead, State.record, deviceRead, ho]⟩

theorem SameButDevices.runSeq {s u : State} (h : SameButDevices s u) {ops : List MicroOp}
    (hops : s.params.oracle = .any ∨ ∀ op ∈ ops, ∀ a, op ≠ .read a) :
    SameButDevices (s.runSeq ops) (u.runSeq ops) := by
  rw [State.runSeq_eq, State.runSeq_eq]
  induction ops generalizing s u with
  | nil =>
    obtain ⟨m, ds, rfl⟩ := h
    exact ⟨m, ds, rfl⟩
  | cons op rest ih =>
    rw [List.forall_mem_cons] at hops
    exact ih (h.issue (hops.imp_right And.left)) (by simpa using hops.imp_right And.right)

/-- A command other than INIT: its operands are checked, then it runs. -/
theorem exec_eq_of_ne_init {i : Instr} (hi : ∀ drv addr, i ≠ .init drv addr) (s : State) :
    exec i s = if i.wellFormed then s.runCommand (commandOps s.params i) (instrWords i)
      else .next (s.raiseFault .illegalOperand) := by
  cases i with
  | init drv addr => exact absurd rfl (hi drv addr)
  | _ => rfl

/-- The two outcomes are next states, equal but for the devices. -/
def SameOutcome (o o' : Host.Outcome State Fault Refusal) : Prop :=
  ∃ t u, o = .next t ∧ o' = .next u ∧ SameButDevices t u

theorem SameButDevices.raiseFault {s u : State} (h : SameButDevices s u) (c : FaultCode) :
    SameOutcome (.next (s.raiseFault c)) (.next (u.raiseFault c)) := by
  obtain ⟨m, ds, rfl⟩ := h
  exact ⟨_, _, rfl, rfl, m, ds, rfl⟩

theorem SameButDevices.complete {s u : State} (h : SameButDevices s u) (len : Nat) :
    SameButDevices (s.complete len) (u.complete len) := by
  obtain ⟨m, ds, rfl⟩ := h
  exact ⟨m, ds, rfl⟩

theorem SameButDevices.configure {s u : State} (h : SameButDevices s u) :
    SameButDevices s.configure u.configure := by
  obtain ⟨m, ds, rfl⟩ := h
  exact ⟨_, _, rfl⟩

theorem SameButDevices.runCommand {s u : State} (h : SameButDevices s u) {ops : List MicroOp}
    (hops : s.params.oracle = .any ∨ ∀ op ∈ ops, ∀ a, op ≠ .read a) (len : Nat) :
    SameOutcome (s.runCommand ops len) (u.runCommand ops len) := by
  have hcfg : u.cfg = s.cfg := by
    obtain ⟨m, ds, rfl⟩ := h
    rfl
  unfold State.runCommand
  rw [hcfg]
  split
  · exact ⟨_, _, rfl, rfl, (h.runSeq hops).complete len⟩
  · exact h.raiseFault _

/-- INIT under the oracle `any`: its verdict too rests on a free draw. -/
theorem SameButDevices.execInit {s u : State} (h : SameButDevices s u) (ho : s.params.oracle = .any) (drv : Byte)
    (addr : BusAddr) : SameOutcome (execInit drv addr s) (execInit drv addr u) := by
  have haddr : SameButDevices { s with addr := some addr } { u with addr := some addr } := by
    obtain ⟨m, ds, rfl⟩ := h
    exact ⟨m, ds, rfl⟩
  exact ⟨_, _, rfl, rfl, (haddr.runSeq (.inl ho)).configure.complete 1⟩

/-- A command other than INIT, from two states equal but for the devices. -/
theorem SameButDevices.exec_of_ne_init {s u : State} (h : SameButDevices s u) {i : Instr}
    (hi : ∀ drv addr, i ≠ .init drv addr) (hr : s.params.oracle = .any ∨ ∀ e, i ≠ .sleep e) :
    SameOutcome (exec i s) (exec i u) := by
  have hparams : u.params = s.params := by
    obtain ⟨m, ds, rfl⟩ := h
    rfl
  rw [exec_eq_of_ne_init hi, exec_eq_of_ne_init hi, hparams]
  split
  · exact h.runCommand (hr.imp_right fun hs op hop => (blockWrite_of_mem_commandOps _ hi hs op hop).ne_read) _
  · exact h.raiseFault _

/-- Settles O22: the block learns of a device by a read alone, and a read under `any` is a free draw; INIT and SLEEP are the commands that read. -/
theorem deviceCannotReachBlock : Obligations.DeviceCannotReachBlock := by
  intro i s m ds h
  have hsame : SameButDevices s { s with dev := m, others := ds } := ⟨m, ds, rfl⟩
  have hout : SameOutcome (exec i s) (exec i { s with dev := m, others := ds }) := by
    by_cases hi : ∀ drv addr, i ≠ .init drv addr
    · exact hsame.exec_of_ne_init hi (h.imp_right And.right)
    · have ho := h.resolve_right fun h => hi h.1
      push Not at hi
      obtain ⟨drv, addr, rfl⟩ := hi
      exact hsame.execInit ho drv addr
  obtain ⟨t, u, ht, hu, m', ds', rfl⟩ := hout
  exact ⟨t, _, ht, hu, rfl⟩

/-! ### The start addresses -/

/-- SETBR's one write, at its channel's address (42_brightness.md R153). -/
theorem exec_setbr_log {s : State} (hcfg : s.cfg = true) (br : Byte) (c : Chan) :
    ∃ t, exec (.setbr br c) s = .next t ∧ t.log = s.log ++ [.W (led c) (blockBytes (enc br c))] := by
  obtain ⟨t, ht, hlog, -⟩ := runCommand_channels hcfg [c] (enc br) 1
  exact ⟨t, ht, hlog⟩

/-- Settles O6: the address as a number, the rule's list, and SETBR's one write. -/
theorem channelBlockAddresses : Obligations.ChannelBlockAddresses := by
  refine ⟨fun c => ?_, by decide, fun br c s hcfg => ?_⟩
  · have hc := c.isLt
    have hled := led_toNat c
    refine ⟨by omega, by omega, by omega, fun k hk => ⟨?_, by omega⟩⟩
    rw [led_add_toNat c hk, hled]
  · obtain ⟨t, ht, hlog⟩ := exec_setbr_log hcfg br c
    exact ⟨t, _, _, ht, hlog, by rw [led_toNat, Nat.mul_comm]⟩

theorem blockStart_iff (a : RegAddr) : blockStart a = true ↔ a = regAllLed ∨ ∃ c : Chan, a = led c := by
  simp [blockStart, mem_allChannels]

/-- Settles O24: a legal transaction has a listed start address and width; INIT writes the mode registers, ALLON writes ALL_LED and SETBR a channel. -/
theorem startAddressesAndWidths : Obligations.StartAddressesAndWidths := by
  constructor
  · intro i s t h
    obtain ⟨new, hnew⟩ := (exec_next h).transacts
    refine ⟨new, hnew.log_eq, fun e he => ?_⟩
    have hlegal := hnew.legal e he
    unfold eventLegal at hlegal
    split at hlegal
    · trivial
    · rw [Bool.or_eq_true, decide_eq_true_eq, decide_eq_true_eq] at hlegal
      exact .inl ⟨rfl, hlegal⟩
    · rw [Bool.and_eq_true] at hlegal
      exact .inr ⟨rfl, (blockStart_iff _).1 hlegal.1⟩
    · cases hlegal
    · simp only [Bool.and_eq_true, decide_eq_true_eq, and_assoc] at hlegal
      exact hlegal
  · intro a s hcfg ha
    obtain ⟨v, hinit⟩ := State.runSeq_initOps_log { s with addr := some 0#7 } 0#8 0#7
    simp only [List.append_assoc] at hinit
    obtain rfl | rfl | rfl | ⟨c, rfl⟩ := ha
    · exact ⟨.init 0#8 0#7, _, _, [mode1Init], rfl, hinit, by simp [regMode1]⟩
    · exact ⟨.init 0#8 0#7, _, _, [mode2Init 0#8], rfl, hinit, by simp [regMode2]⟩
    · obtain ⟨t, ht, hlog, -⟩ := runCommand_allLed hcfg onBlk 1
      exact ⟨.allon, t, _, _, ht, hlog, List.mem_singleton.2 rfl⟩
    · obtain ⟨t, ht, hlog⟩ := exec_setbr_log hcfg 0#8 c
      exact ⟨_, t, _, _, ht, hlog, List.mem_singleton.2 rfl⟩

/-! ### MODE1 on the simulated device -/

/-- A 1-byte write below ALL_LED changes that register of the simulated device only. -/
theorem simWrite_byte {a : RegAddr} (h : a.toNat < 0xFA) (b : Byte) (m : Memory) :
    simWrite a [b] m = Memory.write m a b :=
  landByte_plain b b m h

/-- A block write leaves MODE1 of the simulated device as it was. -/
theorem BlockWrite.issue_mode1 {op : MicroOp} (h : BlockWrite op) {s : State} (ho : s.params.oracle = .sim)
    (hm : Memory.wf s.dev = true) : Memory.read (s.issue op).dev regMode1 = Memory.read s.dev regMode1 := by
  rw [State.issue_dev_sim ho]
  cases h with
  | channel c b => exact (landBytes_channelsWritten simLand_plain c (fun _ => b) hm).mode1
  | allLed b =>
    exact (landBytes_allLed simLand_plain b hm).2 _ mode1_not_inBlock (by simp [inBlock, regAllLed, regMode1])

theorem State.runSeq_blockWrites_mode1 {ops : List MicroOp} (hops : ∀ op ∈ ops, BlockWrite op) {s : State}
    (ho : s.params.oracle = .sim) (hm : Memory.wf s.dev = true) :
    Memory.read (s.runSeq ops).dev regMode1 = Memory.read s.dev regMode1 := by
  rw [State.runSeq_eq]
  induction ops generalizing s with
  | nil => rfl
  | cons op rest ih =>
    rw [List.forall_mem_cons] at hops
    exact (ih hops.2 (by simpa using ho) (State.issueAll_wf [op] hm)).trans (hops.1.issue_mode1 ho hm)

/-- SLEEP writes back the byte it read from MODE1, bit 4 set or cleared (40_mode.md R112). -/
theorem State.runSeq_sleepOps_mode1 {s : State} (ho : s.params.oracle = .sim) (hm : Memory.wf s.dev = true)
    (e : Bool) :
    Memory.read (s.runSeq (sleepOps e)).dev regMode1 = sleepByte e (Memory.read s.dev regMode1) := by
  have hdev : (s.runSeq (sleepOps e)).dev =
      Memory.write s.dev regMode1 (sleepByte e (Memory.read s.dev regMode1)) := by
    rw [State.runSeq_eq]
    simp [sleepOps, State.issue, deviceWrite, deviceRead, ho, simWrite_byte, regMode1]
  rw [hdev, Memory.read_write hm, if_pos rfl]

/-- INIT leaves its own value in MODE1 (40_mode.md R110, R114). -/
theorem init_mode1 {s : State} (ho : s.params.oracle = .sim) (hm : Memory.wf s.dev = true) (drv : Byte)
    (addr : BusAddr) :
    Memory.read ((({ s with addr := some addr }).runSeq (initOps drv addr)).configure.complete 1).dev regMode1 =
      mode1Init := by
  have hdev : ((({ s with addr := some addr }).runSeq (initOps drv addr)).configure.complete 1).dev =
      Memory.write (Memory.write s.dev regMode2 (mode2Init drv)) regMode1 mode1Init := by
    rw [State.runSeq_eq]
    simp [initOps, State.issue, deviceSelect, deviceWrite, deviceConfirm_sim, ho, simWrite_byte, regMode1, regMode2]
  rw [hdev, Memory.read_write (Memory.write_wf _ _ hm), if_pos rfl]

theorem mode1Init_autoIncrement : mode1Init.getLsbD 5 = true := by decide

/-- Putting a byte to sleep or waking it leaves bit 5. -/
theorem sleepByte_autoIncrement (e : Bool) (v : Byte) : (sleepByte e v).getLsbD 5 = v.getLsbD 5 := by
  cases e <;> simp [sleepByte]

/-- A command leaves MODE1.AI = 1 on the simulated device: INIT sets it, SLEEP writes it back, a block write does not reach it (20_memory.md R64). -/
theorem ExecOutcome.autoIncrement_kept {i : Instr} {s t : State} (he : ExecOutcome i s (.next t))
    (ho : s.params.oracle = .sim) (hm : Memory.wf s.dev = true)
    (hai : (Memory.read s.dev regMode1).getLsbD 5 = true) : (Memory.read t.dev regMode1).getLsbD 5 = true := by
  cases he with
  | init drv addr h => rw [init_mode1 ho hm, mode1Init_autoIncrement]
  | illegalOperand h => exact hai
  | notInitialized h hi hc => exact hai
  | completes h hi hc =>
    rw [State.complete_dev]
    by_cases hs : ∀ e, i ≠ .sleep e
    · rwa [State.runSeq_blockWrites_mode1 (blockWrite_of_mem_commandOps _ hi hs) ho hm]
    · push Not at hs
      obtain ⟨e, rfl⟩ := hs
      rwa [commandOps, State.runSeq_sleepOps_mode1 ho hm, sleepByte_autoIncrement]

/-- Settles O48: INIT writes MODE1 with AI set, and no command clears it after that. -/
theorem autoIncrementKept : Obligations.AutoIncrementKept := by
  refine ⟨fun drv addr s ho hm => ⟨_, rfl, ?_⟩, fun s t ho hm hai h => ?_⟩
  · rw [show (0x00#8 : RegAddr) = regMode1 from rfl, init_mode1 ho hm, mode1Init_autoIncrement]
  · obtain ⟨-, ⟨-, rfl⟩ | ⟨-, c, -, rfl⟩ | ⟨-, i, -, he⟩⟩ := step_next h
    · exact hai
    · exact hai
    · exact he.autoIncrement_kept ho hm hai

end Sys2Proof.Machine
end

section
/-! The family 30_encoding.md: a header's layout, decoder and encoder as each other's inverse, the order of bytes in a word, the step of a decoded command, the assembler. -/

namespace Sys2Proof.Machine

open Sys2Proof.Laws

/-! ### The fields of a header -/

/-- Two parts appended stand at a word's bits exactly when each part stands at its own. -/
theorem append_eq_extractLsb'_iff {h : Word32} {s n m : Nat} {x : BitVec n} {y : BitVec m} :
    x ++ y = h.extractLsb' s (n + m) ↔ x = h.extractLsb' (s + m) n ∧ y = h.extractLsb' s m := by
  rw [← BitVec.extractLsb'_append_extractLsb'_eq_extractLsb' (rfl : s + m = s + m)]
  refine ⟨fun e => ⟨?_, ?_⟩, fun ⟨hx, hy⟩ => by rw [hx, hy]⟩
  · simpa only [BitVec.extractLsb'_append_eq_left] using congrArg (BitVec.extractLsb' m n) e
  · simpa only [BitVec.extractLsb'_append_eq_right] using congrArg (BitVec.extractLsb' 0 m) e

theorem ofBool_eq_extractLsb'_iff {w k : Nat} {x : BitVec w} {b : Bool} :
    BitVec.ofBool b = x.extractLsb' k 1 ↔ b = x.getLsbD k := by
  rw [BitVec.getLsbD_eq_extractLsb']
  generalize x.extractLsb' k 1 = y
  revert b y
  decide

/-- The layout of each command's header, from bit 31 down: what stands at which bits (30_encoding.md R83 to R90). -/
def HeaderFields (i : Instr) (h : Word32) : Prop :=
  match i with
  | .init drv addr =>
    0#9 = h.extractLsb' 23 9 ∧ addr = h.extractLsb' 16 7 ∧ drv = h.extractLsb' 8 8 ∧ 0#4 = h.extractLsb' 4 4 ∧
      0x1#4 = h.extractLsb' 0 4
  | .sleep e =>
    0#23 = h.extractLsb' 9 23 ∧ e = h.getLsbD 8 ∧ 0#4 = h.extractLsb' 4 4 ∧ 0x2#4 = h.extractLsb' 0 4
  | .allon => 0#28 = h.extractLsb' 4 28 ∧ 0x3#4 = h.extractLsb' 0 4
  | .alloff => 0#28 = h.extractLsb' 4 28 ∧ 0x4#4 = h.extractLsb' 0 4
  | .setbits mask => mask = h.extractLsb' 16 16 ∧ 0#12 = h.extractLsb' 4 12 ∧ 0x5#4 = h.extractLsb' 0 4
  | .setonmask mask => mask = h.extractLsb' 16 16 ∧ 0#12 = h.extractLsb' 4 12 ∧ 0x6#4 = h.extractLsb' 0 4
  | .setoffmask mask => mask = h.extractLsb' 16 16 ∧ 0#12 = h.extractLsb' 4 12 ∧ 0x7#4 = h.extractLsb' 0 4
  | .setbr br ch =>
    0#16 = h.extractLsb' 16 16 ∧ br = h.extractLsb' 8 8 ∧ ch = h.extractLsb' 4 4 ∧ 0x8#4 = h.extractLsb' 0 4
  | .setbrall br =>
    0#16 = h.extractLsb' 16 16 ∧ br = h.extractLsb' 8 8 ∧ 0#4 = h.extractLsb' 4 4 ∧ 0x9#4 = h.extractLsb' 0 4
  | .setbrs first count _ =>
    0#19 = h.extractLsb' 13 19 ∧ count = h.extractLsb' 8 5 ∧ first = h.extractLsb' 4 4 ∧ 0xA#4 = h.extractLsb' 0 4
  | .setrgb v0 v1 v2 group =>
    v2 = h.extractLsb' 24 8 ∧ v1 = h.extractLsb' 16 8 ∧ v0 = h.extractLsb' 8 8 ∧ 0#1 = h.extractLsb' 7 1 ∧
      group = h.extractLsb' 4 3 ∧ 0xB#4 = h.extractLsb' 0 4

/-- A command's header is the one word with the command's layout. -/
theorem headerFields_iff {i : Instr} {h : Word32} : HeaderFields i h ↔ encodeHeader i = h := by
  conv_rhs => rw [← h.extractLsb'_eq_self]
  cases i with
  | init drv addr =>
    change _ ↔ 0#9 ++ addr ++ drv ++ 0#4 ++ 0x1#4 = h.extractLsb' 0 (9 + 7 + 8 + 4 + 4)
    simp only [append_eq_extractLsb'_iff, and_assoc]
    exact Iff.rfl
  | sleep e =>
    change _ ↔ 0#23 ++ BitVec.ofBool e ++ 0#4 ++ 0x2#4 = h.extractLsb' 0 (23 + 1 + 4 + 4)
    simp only [append_eq_extractLsb'_iff, ofBool_eq_extractLsb'_iff, and_assoc]
    exact Iff.rfl
  | allon | alloff =>
    change _ ↔ 0#28 ++ _ = h.extractLsb' 0 (28 + 4)
    simp only [append_eq_extractLsb'_iff]
    exact Iff.rfl
  | setbits mask | setonmask mask | setoffmask mask =>
    change _ ↔ mask ++ 0#12 ++ _ = h.extractLsb' 0 (16 + 12 + 4)
    simp only [append_eq_extractLsb'_iff, and_assoc]
    exact Iff.rfl
  | setbr br ch =>
    change _ ↔ 0#16 ++ br ++ ch ++ 0x8#4 = h.extractLsb' 0 (16 + 8 + 4 + 4)
    simp only [append_eq_extractLsb'_iff, and_assoc]
    exact Iff.rfl
  | setbrall br =>
    change _ ↔ 0#16 ++ br ++ 0#4 ++ 0x9#4 = h.extractLsb' 0 (16 + 8 + 4 + 4)
    simp only [append_eq_extractLsb'_iff, and_assoc]
    exact Iff.rfl
  | setbrs first count p =>
    change _ ↔ 0#19 ++ count ++ first ++ 0xA#4 = h.extractLsb' 0 (19 + 5 + 4 + 4)
    simp only [append_eq_extractLsb'_iff, and_assoc]
    exact Iff.rfl
  | setrgb v0 v1 v2 group =>
    change _ ↔ v2 ++ v1 ++ v0 ++ 0#1 ++ group ++ 0xB#4 = h.extractLsb' 0 (8 + 8 + 8 + 1 + 3 + 4)
    simp only [append_eq_extractLsb'_iff, and_assoc]
    exact Iff.rfl

/-! ### Decoding an encoding -/

theorem headerShape (i : Instr) : HeaderShape.Statement i := by
  cases i with
  | init drv addr => exact HeaderShape.init drv addr
  | sleep e => exact HeaderShape.sleep e
  | allon => exact HeaderShape.allon
  | alloff => exact HeaderShape.alloff
  | setbits mask => exact HeaderShape.setbits mask
  | setonmask mask => exact HeaderShape.setonmask mask
  | setoffmask mask => exact HeaderShape.setoffmask mask
  | setbr br ch => exact HeaderShape.setbr br ch
  | setbrall br => exact HeaderShape.setbrall br
  | setbrs first count payload => exact HeaderShape.setbrs first count payload
  | setrgb v0 v1 v2 group => exact HeaderShape.setrgb v0 v1 v2 group

/-- The three checks of the decoder, in one: a legal OP, all words present, no reserved bit set (60_exceptions.md R182). -/
theorem decode_cons_ok_iff {h : Word32} {rest : List Word32} {i : Instr} :
    decode (h :: rest) = .ok i ↔
      fieldsOf h rest = some i ∧ opWords (opField h) ≤ rest.length + 1 ∧ h &&& reservedBits (opField h) = 0#32 := by
  rw [decode]
  cases fieldsOf h rest with
  | none => simp
  | some j =>
    by_cases hlen : rest.length + 1 < opWords (opField h)
    · simp [hlen]
    · by_cases hres : h &&& reservedBits (opField h) = 0#32 <;> simp [hlen, hres, Nat.not_lt.1 hlen]

/-- The decoder reads each operand at the bits where the layout puts it. -/
theorem fieldsOf_encodeHeader (i : Instr) (rest : List Word32) :
    fieldsOf (encodeHeader i) (encodePayload i ++ rest) = some i := by
  have hf : HeaderFields i (encodeHeader i) := headerFields_iff.2 rfl
  generalize encodeHeader i = h at *
  cases i
  all_goals
    simp only [HeaderFields] at hf
    simp [fieldsOf, opField, ← hf, encodePayload, payloadOf, -BitVec.getLsbD_eq_getElem]

/-- An encoded header has no reserved bit: each field, and its part of the mask, has 0 in one of the two. -/
theorem reservedBits_encodeHeader (i : Instr) : encodeHeader i &&& reservedBits (opField (encodeHeader i)) = 0#32 := by
  obtain ⟨hop, -, -⟩ := headerShape i
  rw [hop]
  cases i with
  | init drv addr =>
    change 0#9 ++ addr ++ drv ++ 0#4 ++ 0x1#4 &&& 0x1FF#9 ++ 0#7 ++ 0#8 ++ 0xF#4 ++ 0#4 = _
    simp only [BitVec.and_append, BitVec.zero_and, BitVec.and_zero, BitVec.zero_append_zero]
  | sleep e =>
    change 0#23 ++ BitVec.ofBool e ++ 0#4 ++ 0x2#4 &&& 0x7FFFFF#23 ++ 0#1 ++ 0xF#4 ++ 0#4 = _
    simp only [BitVec.and_append, BitVec.zero_and, BitVec.and_zero, BitVec.zero_append_zero]
  | allon | alloff => rfl
  | setbits mask | setonmask mask | setoffmask mask =>
    change (mask ++ 0#12 ++ _ : BitVec (16 + 12 + 4)) &&& 0#16 ++ 0xFFF#12 ++ 0#4 = _
    simp only [BitVec.and_append, BitVec.zero_and, BitVec.and_zero, BitVec.zero_append_zero]
  | setbr br ch =>
    change 0#16 ++ br ++ ch ++ 0x8#4 &&& 0xFFFF#16 ++ 0#8 ++ 0#4 ++ 0#4 = _
    simp only [BitVec.and_append, BitVec.zero_and, BitVec.and_zero, BitVec.zero_append_zero]
  | setbrall br =>
    change 0#16 ++ br ++ 0#4 ++ 0x9#4 &&& 0xFFFF#16 ++ 0#8 ++ 0xF#4 ++ 0#4 = _
    simp only [BitVec.and_append, BitVec.zero_and, BitVec.and_zero, BitVec.zero_append_zero]
  | setbrs first count p =>
    change 0#19 ++ count ++ first ++ 0xA#4 &&& 0x7FFFF#19 ++ 0#5 ++ 0#4 ++ 0#4 = _
    simp only [BitVec.and_append, BitVec.zero_and, BitVec.and_zero, BitVec.zero_append_zero]
  | setrgb v0 v1 v2 group =>
    change v2 ++ v1 ++ v0 ++ 0#1 ++ group ++ 0xB#4 &&& 0#8 ++ 0#8 ++ 0#8 ++ 1#1 ++ 0#3 ++ 0#4 = _
    simp only [BitVec.and_append, BitVec.zero_and, BitVec.and_zero, BitVec.zero_append_zero]

/-! ### Encoding what was decoded -/

theorem opField_of_fieldsOf {h : Word32} {rest : List Word32} {i : Instr} (hf : fieldsOf h rest = some i) :
    opField h = HeaderShape.opcode i := by
  unfold fieldsOf at hf
  split at hf <;> cases hf <;> exact BitVec.eq_of_toNat_eq ‹_›

/-- Bits that the mask of an OP covers are 0 in a header that passes the decoder's check. -/
theorem zero_of_reserved {h : Word32} {op : BitVec 4} (hr : h &&& reservedBits (opField h) = 0#32)
    (hop : opField h = op) (s n : Nat) (hm : (reservedBits op).extractLsb' s n = BitVec.allOnes n := by decide) :
    0#n = h.extractLsb' s n := by
  have hbits := congrArg (BitVec.extractLsb' s n) hr
  rw [hop, BitVec.extractLsb'_and, hm, BitVec.and_allOnes, BitVec.extractLsb'_zero] at hbits
  exact hbits.symm

/-- A header that passes the decoder's checks is the encoding of what is read from it: every bit is an operand's, OP's, or a reserved 0. Case h_k is the header whose OP is k. -/
theorem encodeHeader_of_fieldsOf {h : Word32} {rest : List Word32} {i : Instr} (hf : fieldsOf h rest = some i)
    (hr : h &&& reservedBits (opField h) = 0#32) : encodeHeader i = h := by
  have hop := opField_of_fieldsOf hf
  apply headerFields_iff.1
  unfold fieldsOf at hf
  split at hf
  case h_12 => cases hf
  all_goals
    cases hf
    simp only [HeaderShape.opcode] at hop
  case h_1 => exact ⟨zero_of_reserved hr hop 23 9, rfl, rfl, zero_of_reserved hr hop 4 4, hop.symm⟩
  case h_2 => exact ⟨zero_of_reserved hr hop 9 23, rfl, zero_of_reserved hr hop 4 4, hop.symm⟩
  case h_3 | h_4 => exact ⟨zero_of_reserved hr hop 4 28, hop.symm⟩
  case h_5 | h_6 | h_7 => exact ⟨rfl, zero_of_reserved hr hop 4 12, hop.symm⟩
  case h_8 => exact ⟨zero_of_reserved hr hop 16 16, rfl, rfl, hop.symm⟩
  case h_9 => exact ⟨zero_of_reserved hr hop 16 16, rfl, zero_of_reserved hr hop 4 4, hop.symm⟩
  case h_10 => exact ⟨zero_of_reserved hr hop 13 19, rfl, rfl, hop.symm⟩
  case h_11 => exact ⟨rfl, rfl, rfl, zero_of_reserved hr hop 7 1, rfl, hop.symm⟩

/-- SETBRS carries the four words after its header; every other command carries none (30_encoding.md R80, R89). -/
theorem encodePayload_of_fieldsOf {h : Word32} {rest : List Word32} {i : Instr} (hf : fieldsOf h rest = some i)
    (hlen : opWords (opField h) ≤ rest.length + 1) : encodePayload i <+: rest := by
  rw [← instrWords_of_fieldsOf hf] at hlen
  unfold fieldsOf at hf
  split at hf
  all_goals cases hf
  case h_10 =>
    match rest, hlen with
    | p0 :: p1 :: p2 :: p3 :: tail, _ => exact ⟨tail, rfl⟩
  all_goals exact List.nil_prefix

/-! ### Decoder and encoder -/

/-- The words that decode to a command are exactly those that begin with its encoding. -/
theorem decode_eq_ok_iff {ws : List Word32} {i : Instr} : decode ws = .ok i ↔ encode i <+: ws := by
  constructor
  · intro hd
    cases ws with
    | nil => cases hd
    | cons h rest =>
      obtain ⟨hf, hlen, hr⟩ := decode_cons_ok_iff.1 hd
      exact List.cons_prefix_cons.2 ⟨encodeHeader_of_fieldsOf hf hr, encodePayload_of_fieldsOf hf hlen⟩
  · rintro ⟨rest, rfl⟩
    obtain ⟨-, hlen, -⟩ := headerShape i
    exact decode_cons_ok_iff.2 ⟨fieldsOf_encodeHeader i rest, by simp [← hlen, encode], reservedBits_encodeHeader i⟩

/-- Settles O1: a command's encoding begins every list that continues it. -/
theorem decodeOfEncode : Obligations.DecodeOfEncode := fun i rest =>
  decode_eq_ok_iff.2 (List.prefix_append (encode i) rest)

/-- Settles O2: what begins with an encoding has it as its first words, and these are instrWords many. -/
theorem encodeOfDecode : Obligations.EncodeOfDecode := by
  intro ws i hd
  obtain ⟨-, -, hwords⟩ := headerShape i
  rw [hwords]
  exact (List.prefix_iff_eq_take.1 (decode_eq_ok_iff.1 hd)).symm

/-- Words after a command that decodes do not change what it decodes to. -/
theorem decode_append {ws : List Word32} {i : Instr} (hd : decode ws = .ok i) (rest : List Word32) :
    decode (ws ++ rest) = .ok i :=
  decode_eq_ok_iff.2 ((decode_eq_ok_iff.1 hd).trans (List.prefix_append ws rest))

/-! ### Bytes and words -/

/-- A word made of four bytes is the one that holds each at its bits (30_encoding.md R81). -/
theorem wordOfBytes_eq_iff {b0 b1 b2 b3 : Byte} {w : Word32} : wordOfBytes b0 b1 b2 b3 = w ↔
    b3 = w.extractLsb' 24 8 ∧ b2 = w.extractLsb' 16 8 ∧ b1 = w.extractLsb' 8 8 ∧ b0 = w.extractLsb' 0 8 := by
  conv_lhs => rw [← w.extractLsb'_eq_self]
  change b3 ++ b2 ++ b1 ++ b0 = w.extractLsb' 0 (8 + 8 + 8 + 8) ↔ _
  simp only [append_eq_extractLsb'_iff, and_assoc]

theorem wordsOfBytes_bytesOfWords (ws : List Word32) : wordsOfBytes (bytesOfWords ws) = ws := by
  induction ws with
  | nil => rfl
  | cons w rest ih => rw [bytesOfWords, wordsOfBytes, wordOfBytes_byteOfWord, ih]

/-- `BRV[4k + m]` is byte m of `Pk` (30_encoding.md R89). -/
theorem brv_eq_extractLsb' (p : Payload) {k m : Nat} (hk : k < 4) (hm : m < 4) :
    brv p (BitVec.ofNat 4 (4 * k + m)) = (payloadWord p k).extractLsb' (8 * m) 8 := by
  have hj : (4 * k + m) % 2 ^ 4 = 4 * k + m := Nat.mod_eq_of_lt (by omega)
  rw [brv, BitVec.toNat_ofNat, hj, show (4 * k + m) / 4 = k by omega, show (4 * k + m) % 4 = m by omega]

/-- Settles O4: a delivered word holds its bytes at their bits, and BRV reads a payload word in the same order. -/
theorem wordByteOrder : Obligations.WordByteOrder := by
  refine ⟨fun b0 b1 b2 b3 rest => ?_, wordsOfBytes_bytesOfWords, fun p m hm => ?_⟩
  · obtain ⟨h3, h2, h1, h0⟩ := wordOfBytes_eq_iff.1 (rfl : wordOfBytes b0 b1 b2 b3 = _)
    exact ⟨_, rfl, h0.symm, h1.symm, h2.symm, h3.symm⟩
  · have hbrv (k : Nat) (hk : k < 4) := brv_eq_extractLsb' p hk hm
    exact ⟨by simpa [payloadWord] using hbrv 0 (by decide), hbrv 1 (by decide), hbrv 2 (by decide), hbrv 3 (by decide)⟩

/-! ### The step of a command that stands at cp -/

theorem step_of_decode_ok {s : State} {w : Word32} {ws : List Word32} {i : Instr} (hf : s.flt = false)
    (hw : s.pendingWords = w :: ws) (hd : decode (w :: ws) = .ok i) : step s = exec i s := by
  simp [step, hf, hw, hd]

theorem step_of_decode_error {s : State} {w : Word32} {ws : List Word32} {c : FaultCode} (hf : s.flt = false)
    (hw : s.pendingWords = w :: ws) (hd : decode (w :: ws) = .error c) : step s = .next (s.raiseFault c) := by
  simp [step, hf, hw, hd]

/-- Settles O8: some word is pending, so the block decodes and runs it. -/
theorem stepRunsDecoded : Obligations.StepRunsDecoded := by
  intro s i hf hne hd
  obtain ⟨w, ws, hw⟩ := List.exists_cons_of_ne_nil hne
  exact step_of_decode_ok hf hw (hw ▸ hd)

/-- A SETBRS header with fewer than four words after it is TRUNCATED (30_encoding.md R93). -/
theorem decode_truncated {h : Word32} {rest : List Word32} (hop : opField h = 0xA#4) (hlen : rest.length < 4) :
    decode (h :: rest) = .error .truncated := by
  simp [decode, fieldsOf, opWords, hop, hlen]

/-- Settles O5: OP alone gives the length of a decoded command, and a short SETBRS enters the fault TRUNCATED. -/
theorem lengthFromOpcode : Obligations.LengthFromOpcode := by
  refine ⟨fun h rest i hd => ?_, fun s h rest hf hw hop hlen => ?_⟩
  · obtain ⟨hi, -, -⟩ := decode_cons_ok_iff.1 hd
    exact instrWords_of_fieldsOf hi
  · have hd := decode_truncated hop hlen
    exact ⟨hw ▸ hd, step_of_decode_error hf hw hd⟩

/-- Words placed at an index stand there, with the old words after them. -/
theorem drop_placeWords (stream ws : List Word32) (n : Nat) :
    (placeWords stream n ws).drop n = ws ++ stream.drop (n + ws.length) := by
  have hlen : (stream.take n ++ List.replicate (n - stream.length) 0#32).length = n := by
    simp only [List.length_append, List.length_take, List.length_replicate]
    omega
  rw [placeWords, List.append_assoc _ ws, List.drop_left' hlen]

theorem decode_tableWords {nbits w : Nat} {i : Instr} (h : decodeTableWord nbits w = some i) :
    decode (tableWords nbits w) = .ok i := by
  rw [decodeTableWord, wordsOfBytes_bytesOfWords] at h
  split at h <;> cases h
  assumption

/-- Settles O10: the placed words come first at cp, and what follows them does not change what they decode to. -/
theorem placedWordIsRun : Obligations.PlacedWordIsRun := by
  intro s nbits w i hf h
  have hw : (s.withFetchWord nbits w).pendingWords = tableWords nbits w ++ s.stream.drop (s.cp + 5) :=
    drop_placeWords s.stream (tableWords nbits w) s.cp
  exact step_of_decode_ok hf hw (decode_append (decode_tableWords h) _)

/-- Settles O40: exec checks the operands before CFG, and such a COUNT or GROUP is not legal. -/
theorem illegalOperandFaults : Obligations.IllegalOperandFaults := by
  have hfault {i : Instr} (hi : ∀ drv addr, i ≠ .init drv addr) (hw : ¬ i.wellFormed) (s : State) :
      exec i s = .next (s.raiseFault .illegalOperand) := by
    rw [exec_eq_of_ne_init hi, if_neg hw]
  refine ⟨fun first count p s hc => hfault (by simp) ?_ s, fun v0 v1 v2 group s hg => hfault (by simp) ?_ s⟩
  · simp only [Instr.wellFormed, Bool.and_eq_true, decide_eq_true_eq]
    omega
  · simp only [Instr.wellFormed, decide_eq_true_eq]
    omega

/-! ### The assembler's operands -/

theorem toNat_eq_iff_eq_ofNat {w v : Nat} (hv : v < 2 ^ w) {b : BitVec w} : b.toNat = v ↔ b = BitVec.ofNat w v := by
  rw [← BitVec.toNat_inj, BitVec.toNat_ofNat, Nat.mod_eq_of_lt hv]

@[simp] theorem exists_toNat_eq_iff {w v : Nat} : (∃ b : BitVec w, b.toNat = v) ↔ v < 2 ^ w :=
  ⟨fun ⟨b, hb⟩ => hb ▸ b.isLt, fun hv => ⟨BitVec.ofNat w v, (toNat_eq_iff_eq_ofNat hv).2 rfl⟩⟩

/-- An operand assembles to the field whose value is the number written, and to nothing where no field is (30_encoding.md R95). -/
theorem asmField_eq_some_iff {w v : Nat} {b : BitVec w} : asmField w v = some b ↔ b.toNat = v := by
  unfold asmField
  split
  · rename_i hv
    rw [Option.some_inj, toNat_eq_iff_eq_ofNat hv, eq_comm]
  · rename_i hv
    simpa using fun hb : b.toNat = v => hv (exists_toNat_eq_iff.1 ⟨b, hb⟩)

/-- Number j of the list of SETBRS, as a byte. -/
def valueByte (values : List Nat) (j : Nat) : Byte := BitVec.ofNat 8 (values.getD j 0)

theorem byte_wordOfBytes (f : Nat → Byte) {m : Nat} (hm : m < 4) :
    (wordOfBytes (f 0) (f 1) (f 2) (f 3)).extractLsb' (8 * m) 8 = f m := by
  obtain ⟨h3, h2, h1, h0⟩ := wordOfBytes_eq_iff.1 (rfl : wordOfBytes (f 0) (f 1) (f 2) (f 3) = _)
  match m, hm with
  | 0, _ => exact h0.symm
  | 1, _ => exact h1.symm
  | 2, _ => exact h2.symm
  | 3, _ => exact h3.symm

theorem exists_asmPayload_iff {values : List Nat} :
    (∃ p, asmPayload values = some p) ↔ values.length = 16 ∧ ∀ v ∈ values, v ≤ 255 := by
  simp [asmPayload, Nat.lt_succ_iff]

/-- Payload word k packs numbers 4k to 4k+3 of the list (30_encoding.md R89). -/
theorem payloadWord_of_asmPayload {values : List Nat} {p : Payload} (hp : asmPayload values = some p) {k : Nat}
    (hk : k < 4) : payloadWord p k = wordOfBytes (valueByte values (4 * k)) (valueByte values (4 * k + 1))
      (valueByte values (4 * k + 2)) (valueByte values (4 * k + 3)) := by
  unfold asmPayload at hp
  split at hp <;> cases hp
  match k, hk with
  | 0, _ | 1, _ | 2, _ | 3, _ => rfl

/-- `BRV[j]` is number j of the list. -/
theorem brv_of_asmPayload {values : List Nat} {p : Payload} (hp : asmPayload values = some p) {j : Nat} (hj : j < 16) :
    brv p (BitVec.ofNat 4 j) = valueByte values j := by
  have hm : j % 4 < 4 := Nat.mod_lt j (by decide)
  rw [← Nat.div_add_mod j 4, brv_eq_extractLsb' p (by omega) hm, payloadWord_of_asmPayload hp (by omega)]
  exact byte_wordOfBytes (fun m => valueByte values (4 * (j / 4) + m)) hm

theorem getElem?_of_asmPayload {values : List Nat} {p : Payload} (hp : asmPayload values = some p) {j : Nat}
    (hj : j < 16) : values[j]? = some (brv p (BitVec.ofNat 4 j)).toNat := by
  obtain ⟨hlen, hbytes⟩ := exists_asmPayload_iff.1 ⟨p, hp⟩
  have hj' : j < values.length := hlen ▸ hj
  have hbyte := hbytes _ (List.getElem_mem hj')
  rw [brv_of_asmPayload hp hj, valueByte, List.getD_eq_getElem _ _ hj', BitVec.toNat_ofNat,
    Nat.mod_eq_of_lt (by omega), List.getElem?_eq_getElem hj']

/-! ### What each line assembles to -/

theorem assemble_init_iff {drv addr : Nat} {i : Instr} : assemble (.init drv addr) = some i ↔
    ∃ d a, i = .init d a ∧ d.toNat = drv ∧ a.toNat = addr := by
  simp only [assemble, asmInit, ← asmField_eq_some_iff]
  cases asmField 8 drv <;> cases asmField 7 addr <;> simp [eq_comm]

theorem assemble_sleep_iff {e : Nat} {i : Instr} : assemble (.sleep e) = some i ↔
    (e = 0 ∨ e = 1) ∧ i = .sleep (decide (e = 1)) := by
  rw [assemble]
  unfold asmSleep
  split <;> simp_all [eq_comm]

theorem asmMask_eq_some_iff {make : BitVec 16 → Instr} {m : Nat} {i : Instr} :
    asmMask make m = some i ↔ ∃ k, i = make k ∧ k.toNat = m := by
  simp only [asmMask, ← asmField_eq_some_iff]
  cases asmField 16 m <;> simp [eq_comm]

theorem assemble_setbr_iff {br ch : Nat} {i : Instr} : assemble (.setbr br ch) = some i ↔
    ∃ b c, i = .setbr b c ∧ b.toNat = br ∧ c.toNat = ch := by
  simp only [assemble, ← asmField_eq_some_iff]
  cases asmField 8 br <;> cases asmField 4 ch <;> simp [eq_comm]

theorem assemble_setbrall_iff {br : Nat} {i : Instr} : assemble (.setbrall br) = some i ↔
    ∃ b, i = .setbrall b ∧ b.toNat = br := by
  simp only [assemble, ← asmField_eq_some_iff]
  cases asmField 8 br <;> simp [eq_comm]

theorem assemble_setbrs_iff {first count : Nat} {values : List Nat} {i : Instr} :
    assemble (.setbrs first count values) = some i ↔
      ∃ f n p, i = .setbrs f n p ∧ f.toNat = first ∧ n.toNat = count ∧ (1 ≤ count ∧ count ≤ 16) ∧
        asmPayload values = some p := by
  simp only [assemble, asmSetbrs, ← asmField_eq_some_iff (w := 4)]
  split
  · rename_i hcount
    simp only [toNat_eq_iff_eq_ofNat (show count < 2 ^ 5 by omega)]
    cases asmField 4 first <;> cases asmPayload values <;> simp [eq_comm, hcount]
  · simp [*]

theorem assemble_setrgb_iff {v0 v1 v2 group : Nat} {i : Instr} : assemble (.setrgb v0 v1 v2 group) = some i ↔
    ∃ a b c g, i = .setrgb a b c g ∧ a.toNat = v0 ∧ b.toNat = v1 ∧ c.toNat = v2 ∧ g.toNat = group ∧ group ≤ 4 := by
  simp only [assemble, asmSetrgb, ← asmField_eq_some_iff (w := 8)]
  split
  · rename_i hgroup
    simp only [toNat_eq_iff_eq_ofNat (show group < 2 ^ 3 by omega)]
    cases asmField 8 v0 <;> cases asmField 8 v1 <;> cases asmField 8 v2 <;> simp [eq_comm, hgroup]
  · simp [*]

/-- Settles O50: each mnemonic's command and its operands, as its line's lemma gives them. -/
theorem assemblerOperands : Obligations.AssemblerOperands := by
  refine ⟨fun _ _ _ => assemble_init_iff.1, fun _ _ h => (assemble_sleep_iff.1 h).2, fun _ _ => asmMask_eq_some_iff.1,
    fun _ _ => asmMask_eq_some_iff.1, fun _ _ => asmMask_eq_some_iff.1, fun _ _ _ => assemble_setbr_iff.1,
    fun _ _ => assemble_setbrall_iff.1, fun first count values i h => ?_, fun v0 v1 v2 group i h => ?_⟩
  · obtain ⟨f, n, p, hi, hf, hn, -, hp⟩ := assemble_setbrs_iff.1 h
    exact ⟨f, n, p, hi, hf, hn, fun j hj => getElem?_of_asmPayload hp hj⟩
  · obtain ⟨a, b, c, g, hi, ha, hb, hc, hg, -⟩ := assemble_setrgb_iff.1 h
    exact ⟨a, b, c, g, hi, ha, hb, hc, hg⟩

/-! ### Which lines assemble -/

theorem assemble_wellFormed {line : AsmLine} {i : Instr} (h : assemble line = some i) : i.wellFormed = true := by
  cases line with
  | init drv addr | initDefault drv => obtain ⟨d, a, rfl, -⟩ := assemble_init_iff.1 h; rfl
  | sleep e | wake | sleepOn => obtain ⟨-, rfl⟩ := assemble_sleep_iff.1 h; rfl
  | allon | alloff => cases h; rfl
  | setbits mask | setonmask mask | setoffmask mask => obtain ⟨k, rfl, -⟩ := asmMask_eq_some_iff.1 h; rfl
  | ledOn ch | ledOff ch =>
    simp only [assemble, asmLed] at h
    split at h <;> cases h
    rfl
  | setbr br ch => obtain ⟨b, c, rfl, -⟩ := assemble_setbr_iff.1 h; rfl
  | setbrall br => obtain ⟨b, rfl, -⟩ := assemble_setbrall_iff.1 h; rfl
  | setbrs first count values =>
    obtain ⟨f, n, p, rfl, -, hn, hcount, -⟩ := assemble_setbrs_iff.1 h
    simpa [Instr.wellFormed, hn] using hcount
  | setrgb v0 v1 v2 group =>
    obtain ⟨a, b, c, g, rfl, -, -, -, hg, hgroup⟩ := assemble_setrgb_iff.1 h
    simpa [Instr.wellFormed, hg] using hgroup

theorem asmMask_isSome_iff {make : BitVec 16 → Instr} {m : Nat} : (asmMask make m).isSome = true ↔ m ≤ 0xFFFF := by
  simp [Option.isSome_iff_exists, asmMask_eq_some_iff, exists_comm (α := Instr), Nat.lt_succ_iff]

/-- Settles O49: a line assembles when each operand is some field's value, and a field of w bits has the values below 2^w. -/
theorem assemblerRanges : Obligations.AssemblerRanges := by
  refine ⟨fun drv addr => ?_, fun e => ?_, rfl, rfl, fun _ => asmMask_isSome_iff, fun _ => asmMask_isSome_iff,
    fun _ => asmMask_isSome_iff, fun br ch => ?_, fun br => ?_, fun first count values => ?_, fun v0 v1 v2 group => ?_,
    fun _ _ => assemble_wellFormed⟩ <;> rw [Option.isSome_iff_exists]
  · simp [assemble_init_iff, exists_comm (α := Instr), Nat.lt_succ_iff]
  · simp [assemble_sleep_iff]
  · simp [assemble_setbr_iff, exists_comm (α := Instr), Nat.lt_succ_iff]
  · simp [assemble_setbrall_iff, exists_comm (α := Instr), Nat.lt_succ_iff]
  · have hwidth : count ≤ 16 → count ≤ 31 := by omega
    simp [assemble_setbrs_iff, exists_comm (α := Instr), Nat.lt_succ_iff, exists_asmPayload_iff]
    tauto
  · have hwidth : group ≤ 4 → group ≤ 7 := by omega
    simp [assemble_setrgb_iff, exists_comm (α := Instr), Nat.lt_succ_iff]
    tauto

/-! ### Pseudo-instructions -/

/-- The mask of one channel is `1 << ch` (30_encoding.md R96). -/
theorem asmLed_eq_asmMask (make : BitVec 16 → Instr) {ch : Nat} (hch : ch ≤ 15) :
    asmLed make ch = asmMask make (1 <<< ch) := by
  have hchan : (BitVec.ofNat 4 ch).toNat = ch := Nat.mod_eq_of_lt (by omega)
  have hbit : 1 <<< ch < 2 ^ 16 := by
    rw [Nat.one_shiftLeft]
    exact Nat.pow_lt_pow_right (by decide) (by omega)
  have hmask : (1#16 <<< ch).toNat = 1 <<< ch := by
    rw [BitVec.toNat_shiftLeft]
    exact Nat.mod_eq_of_lt hbit
  rw [asmLed, asmMask, asmField_eq_some_iff.2 hchan, asmField_eq_some_iff.2 hmask]
  simp only [hchan]

theorem blockBytes_patternBlk_all (c : Chan) :
    blockBytes (patternBlk (maskBit 0xFFFF#16 c)) = [0x00#8, 0x10#8, 0x00#8, 0x00#8] := by
  revert c
  decide

/-- Settles O51: the expansions are the same lines; one write and sixteen writes make logs of different lengths. -/
theorem assemblerExpansions : Obligations.AssemblerExpansions := by
  refine ⟨rfl, rfl, rfl, rfl, fun _ => rfl, rfl, rfl, fun ch hch => ⟨asmLed_eq_asmMask _ hch, asmLed_eq_asmMask _ hch⟩,
    fun s hcfg => ?_⟩
  obtain ⟨t, ht, htlog, -⟩ := runCommand_allLed hcfg onBlk 1
  obtain ⟨u, hu, hulog, -⟩ := runCommand_channels hcfg allChannels (fun c => patternBlk (maskBit 0xFFFF#16 c)) 1
  simp only [blockBytes_patternBlk_all] at hulog
  refine ⟨t, u, ht, hu, htlog, hulog, by simp [allChannels_length], fun h => ?_⟩
  rw [htlog, hulog] at h
  simpa [allChannels_length] using congrArg List.length h

end Sys2Proof.Machine
end

section
/-! The family 40_mode.md: INIT and SLEEP. First the byte SLEEP writes, then each command's next state, then two SLEEPs in turn. -/

namespace Sys2Proof.Machine

/-! ### The byte SLEEP writes -/

/-- Bit 4 of the byte SLEEP writes is E, every other bit is as read (40_mode.md R112). -/
theorem getLsbD_sleepByte (e : Bool) (v : Byte) (i : Nat) :
    (sleepByte e v).getLsbD i = if i = 4 then e else v.getLsbD i := by
  have hset : 0x10#8 = BitVec.twoPow 8 4 := rfl
  have hclear : 0xEF#8 = ~~~BitVec.twoPow 8 4 := rfl
  have hbit : (BitVec.twoPow 8 4).getLsbD i = decide (i = 4) := by
    rw [BitVec.getLsbD_twoPow, show decide (4 < 8) = true from rfl, Bool.true_and]
    simp only [eq_comm]
  cases e with
  | true =>
    rw [sleepByte, if_pos rfl, hset, BitVec.getLsbD_or, hbit]
    split <;> simp [*]
  | false =>
    rw [sleepByte, if_neg Bool.false_ne_true, hclear, BitVec.getLsbD_and, BitVec.getLsbD_not, hbit]
    split
    · simp [*]
    · have hlt : v.getLsbD i = true → i < 8 := BitVec.lt_of_getLsbD
      simpa [*] using hlt

/-- SLEEP leaves a byte as it was exactly when bit 4 is E already. -/
theorem sleepByte_eq_self_iff (e : Bool) (v : Byte) : sleepByte e v = v ↔ v.getLsbD 4 = e := by
  constructor
  · intro h
    rw [← h, getLsbD_sleepByte, if_pos rfl]
  · rintro rfl
    apply BitVec.eq_of_getLsbD_eq
    intro i hi
    rw [getLsbD_sleepByte]
    split <;> simp [*]

/-- Of two bytes SLEEP writes in turn, the second does not depend on the first one's E. -/
theorem sleepByte_sleepByte (e e' : Bool) (v : Byte) : sleepByte e (sleepByte e' v) = sleepByte e v := by
  apply BitVec.eq_of_getLsbD_eq
  intro i hi
  simp only [getLsbD_sleepByte]
  split <;> rfl

/-! ### SLEEP's next state -/

theorem deviceRead_sim {p : Params} (h : p.oracle = .sim) (n : Nat) (a : RegAddr) (m : Memory) :
    deviceRead p n a m = Memory.read m a := by
  simp only [deviceRead, h]

/-- The byte a read of MODE1 is answered with in this state (20_memory.md R55). -/
def State.mode1Answer (s : State) : Byte := deviceRead s.params s.draws 0x00#8 s.dev

/-- The simulated device answers with its MODE1 (20_memory.md R67). -/
theorem State.mode1Answer_sim {s : State} (ho : s.params.oracle = .sim) :
    s.mode1Answer = Memory.read s.dev 0x00#8 :=
  deviceRead_sim ho _ _ _

/-- A command other than INIT that completes keeps what CommandFrame lists. -/
theorem State.commandFrame_complete (s : State) (p : Params) {i : Instr} (hi : ∀ drv addr, i ≠ .init drv addr)
    (len : Nat) : CommandFrame s ((s.runSeq (commandOps p i)).complete len) := by
  obtain ⟨hbus, -⟩ := s.runSeq_commandOps_address p hi
  simp [CommandFrame, hbus]

theorem exec_sleep_of_cfg {s : State} (hcfg : s.cfg = true) (e : Bool) :
    exec (.sleep e) s = .next ((s.runSeq (sleepOps e)).complete 1) :=
  if_pos hcfg

/-- SLEEP reads MODE1 and writes the byte it read back, bit 4 set or cleared (40_mode.md R112). -/
theorem State.eventsOf_sleepOps (s : State) (e : Bool) :
    s.eventsOf (sleepOps e) = [.R 0x00#8 1 [s.mode1Answer], .W 0x00#8 [sleepByte e s.mode1Answer]] := rfl

/-- On the simulated device SLEEP writes MODE1 and no other register. -/
theorem State.runSeq_sleepOps_dev_sim {s : State} (ho : s.params.oracle = .sim) (e : Bool) :
    (s.runSeq (sleepOps e)).dev = Memory.write s.dev 0x00#8 (sleepByte e s.mode1Answer) := by
  rw [State.runSeq_dev_sim ho, State.eventsOf_sleepOps]
  simp [simReplay, simReact, simWrite_byte]

/-- Settles O29: SLEEP's two transactions, the bits of the byte it writes, and the simulated device's one write. -/
theorem sleepCompletes : Obligations.SleepCompletes := by
  intro e s hcfg
  refine ⟨s.mode1Answer, sleepByte e s.mode1Answer, _, exec_sleep_of_cfg hcfg e, ?_, ?_, fun i hi => ?_, ?_,
    s.commandFrame_complete s.params (i := .sleep e) (by simp) 1, fun hm ho => ⟨State.mode1Answer_sim ho, fun x => ?_⟩⟩
  · rw [State.complete_log, State.runSeq_log, State.eventsOf_sleepOps]
  · rw [getLsbD_sleepByte, if_pos rfl]
  · rw [getLsbD_sleepByte, if_neg hi]
  · simp
  · rw [State.complete_dev, State.runSeq_sleepOps_dev_sim ho, Memory.read_write hm]
    simp only [eq_comm]

/-! ### INIT's next state -/

/-- The state INIT leaves (40_mode.md R110). -/
def State.initNext (s : State) (drv : Byte) (addr : BusAddr) : State :=
  (({ s with addr := some addr }).runSeq (initOps drv addr)).configure.complete 1

theorem exec_init (drv : Byte) (addr : BusAddr) (s : State) :
    exec (.init drv addr) s = .next (s.initNext drv addr) := rfl

/-- The byte INIT reads back from MODE1 after its two writes (40_mode.md R110). -/
def State.initReadBack (s : State) (drv : Byte) (addr : BusAddr) : Byte :=
  (({ s with addr := some addr }).runSeq (initOps drv addr)).latch

theorem State.eventsOf_initOps (s : State) (drv : Byte) (addr : BusAddr) :
    s.eventsOf (initOps drv addr) =
      [.A addr, .W 0x01#8 [drv &&& 0x17#8], .W 0x00#8 [0x21#8],
        .R 0x00#8 1 [(s.runSeq (initOps drv addr)).latch]] := rfl

theorem State.initNext_log (s : State) (drv : Byte) (addr : BusAddr) :
    (s.initNext drv addr).log = s.log ++
      [.A addr, .W 0x01#8 [drv &&& 0x17#8], .W 0x00#8 [0x21#8], .R 0x00#8 1 [s.initReadBack drv addr]] := by
  rw [State.initNext, State.complete_log, State.configure_log, State.runSeq_log, State.eventsOf_initOps]
  rfl

/-- OK is the read-back test (40_mode.md R111). -/
theorem State.initNext_ok (s : State) (drv : Byte) (addr : BusAddr) :
    (s.initNext drv addr).ok = decide (s.initReadBack drv addr = 0x21#8) := rfl

/-- On the simulated device INIT writes MODE2, then MODE1, and no other register. -/
theorem State.initNext_dev_sim {s : State} (ho : s.params.oracle = .sim) (drv : Byte) (addr : BusAddr) :
    (s.initNext drv addr).dev = Memory.write (Memory.write s.dev 0x01#8 (drv &&& 0x17#8)) 0x00#8 0x21#8 := by
  have hrun := State.runSeq_dev_sim (s := { s with addr := some addr }) ho (initOps drv addr)
  rw [State.eventsOf_initOps] at hrun
  simpa [State.initNext, deviceConfirm_sim, ho, simReplay, simReact, simWrite_byte] using hrun

/-- The simulated device answers the read-back with its MODE1, which holds INIT's own value. -/
theorem State.initReadBack_sim {s : State} (ho : s.params.oracle = .sim) (hm : Memory.wf s.dev = true) (drv : Byte)
    (addr : BusAddr) : s.initReadBack drv addr = 0x21#8 := by
  have hread : s.initReadBack drv addr = Memory.read (s.initNext drv addr).dev 0x00#8 := by
    rw [State.initNext, State.complete_dev, State.configure_dev, deviceConfirm_sim (by simpa using ho)]
    exact deviceRead_sim ho _ _ _
  exact hread.trans (init_mode1 ho hm drv addr)

/-- The block's own fields, the stream and the parameters after INIT (40_mode.md R110). -/
theorem State.initNext_fields (s : State) (drv : Byte) (addr : BusAddr) :
    let t := s.initNext drv addr
    t.addr = some addr ∧ t.busAddr = some addr ∧ t.cfg = true ∧ t.cp = s.cp + 1 ∧ t.flt = s.flt ∧
      t.fcode = s.fcode ∧ t.stream = s.stream ∧ t.params = s.params ∧ t.seq = [] ∧ t.latch = 0x00#8 := by
  obtain ⟨hbus, -⟩ := State.runSeq_initOps_address { s with addr := some addr } drv addr
  simp [State.initNext, hbus]

/-- Settles O28: INIT's four transactions and its verdict, from every state. -/
theorem initCompletes : Obligations.InitCompletes := by
  intro drv addr s
  obtain ⟨haddr, hbus, hcfg, hcp, hflt, hfcode, hstream, hparams, hseq, hlatch⟩ := s.initNext_fields drv addr
  refine ⟨s.initReadBack drv addr, s.initNext drv addr, exec_init drv addr s, s.initNext_log drv addr, haddr, hbus,
    s.initNext_ok drv addr, hcfg, hcp, hflt, hfcode, hstream, hparams, hseq, hlatch,
    fun hm ho => State.initReadBack_sim ho hm drv addr, fun hm ho x => ?_⟩
  rw [State.initNext_dev_sim ho, Memory.read_write (Memory.write_wf _ _ hm), Memory.read_write hm]
  simp only [eq_comm]

/-- Settles O47: OK is INIT's test of the byte in its last log entry, and two bytes are equal when their eight bits are. -/
theorem initReadBackTest : Obligations.InitReadBackTest := by
  intro drv addr s
  refine ⟨s.initReadBack drv addr, s.initNext drv addr, exec_init drv addr s, ?_, ?_⟩
  · rw [State.initNext_log, List.getLast?_append]
    rfl
  · rw [State.initNext_ok, decide_eq_true_eq]
    exact ⟨fun h i _ => congrArg (·.getLsbD i) h, BitVec.eq_of_getLsbD_eq⟩

/-! ### SLEEP 1, then SLEEP 0 -/

/-- SLEEP on the simulated device, MODE1 alone: it completes, and can be followed by another SLEEP. -/
theorem exec_sleep_sim {s : State} (hcfg : s.cfg = true) (ho : s.params.oracle = .sim) (hm : Memory.wf s.dev = true)
    (e : Bool) : ∃ t, exec (.sleep e) s = .next t ∧
      Memory.read t.dev 0x00#8 = sleepByte e (Memory.read s.dev 0x00#8) ∧
      t.cfg = true ∧ t.params.oracle = .sim ∧ Memory.wf t.dev = true := by
  refine ⟨_, exec_sleep_of_cfg hcfg e, State.runSeq_sleepOps_mode1 ho hm e, by simpa using hcfg, by simpa using ho, ?_⟩
  rw [State.complete_dev, State.runSeq_eq]
  exact State.issueAll_wf _ hm

/-- Settles O46: the two SLEEPs leave what SLEEP 0 alone leaves; INIT leaves 0x21 in MODE1, whose bit 4 is 0. -/
theorem sleepRoundTrip : Obligations.SleepRoundTrip := by
  refine ⟨fun s hcfg ho hm => ?_, fun drv addr s t ho hm h _ => ?_⟩
  · obtain ⟨t, ht, htm, htcfg, hto, htwf⟩ := exec_sleep_sim hcfg ho hm true
    obtain ⟨u, hu, hum, -⟩ := exec_sleep_sim htcfg hto htwf false
    rw [htm, sleepByte_sleepByte] at hum
    refine ⟨t, u, ht, hu, htm, hum, fun i hi => ?_, ?_, ?_⟩
    · rw [hum, getLsbD_sleepByte, if_neg hi]
    · rw [hum, getLsbD_sleepByte, if_pos rfl]
    · rw [hum, sleepByte_eq_self_iff]
  · cases h
    exact congrArg (·.getLsbD 4) (init_mode1 ho hm drv addr)

end Sys2Proof.Machine
end

section
/-! The family 41_switch.md: ALLON, ALLOFF, SETBITS, SETONMASK and SETOFFMASK. First what a command of block writes does when CFG = 1, then each command's next state, then the counts. -/

namespace Sys2Proof.Machine

/-! ### Commands of block writes -/

/-- A command that is one write of ALL_LED completes when CFG = 1: `runCommand_allLed`, said of exec and without the model's own counter. -/
theorem exec_allLed_completes {i : Instr} {s : State} {b : ChannelBlock} {len : Nat}
    (hi : exec i s = s.runCommand [allLedWrite b] len) (hcfg : s.cfg = true) : ∃ t : State,
    exec i s = .next t ∧ t.log = s.log ++ [.W regAllLed (blockBytes b)] ∧ t.cp = s.cp + len ∧ CommandFrame s t ∧
      (Memory.wf s.dev = true → s.params.oracle = .sim → AllLedWritten s.dev t.dev b) ∧
      (Memory.wf s.dev = true → s.params.oracle = .sim → AliasHolds t.dev b) := by
  obtain ⟨t, ht, hlog, hcp, hframe, -, hdev⟩ := runCommand_allLed hcfg b len
  exact ⟨t, hi.trans ht, hlog, hcp, hframe, hdev⟩

/-- A command of channel writes completes when CFG = 1: `runCommand_channels`, said of exec and without the model's own counter. -/
theorem exec_channels_completes {i : Instr} {s : State} {cs : List Chan} {block : Chan → ChannelBlock} {len : Nat}
    (hi : exec i s = s.runCommand (cs.map fun c => channelWrite c (block c)) len) (hcfg : s.cfg = true) : ∃ t : State,
    exec i s = .next t ∧ t.log = s.log ++ cs.map (fun c => Event.W (led c) (blockBytes (block c))) ∧
      t.cp = s.cp + len ∧ CommandFrame s t ∧
      (Memory.wf s.dev = true → s.params.oracle = .sim → ChannelsWritten s.dev t.dev cs block) := by
  obtain ⟨t, ht, hlog, hcp, hframe, -, hdev⟩ := runCommand_channels hcfg cs block len
  exact ⟨t, hi.trans ht, hlog, hcp, hframe, hdev⟩

/-! ### The next state of each switching command -/

/-- Settles O30: ALLON is one write of ON_BLK to ALL_LED. -/
theorem allonCompletes : Obligations.AllonCompletes :=
  fun _ hcfg => exec_allLed_completes (b := onBlk) rfl hcfg

/-- Settles O31: ALLOFF is one write of OFF_BLK to ALL_LED. -/
theorem alloffCompletes : Obligations.AlloffCompletes :=
  fun _ hcfg => exec_allLed_completes (b := offBlk) rfl hcfg

theorem blockBytes_patternBlk (bit : Bool) : blockBytes (patternBlk bit) =
    if bit then [0x00#8, 0x10#8, 0x00#8, 0x00#8] else [0x00#8, 0x00#8, 0x00#8, 0x10#8] := by
  cases bit <;> rfl

/-- Settles O32: SETBITS writes every channel, in order, with the pattern of its mask bit. -/
theorem setbitsCompletes : Obligations.SetbitsCompletes := by
  intro mask s hcfg
  obtain ⟨t, ht, hlog, hrest⟩ := exec_channels_completes (i := .setbits mask) (cs := allChannels)
    (block := fun c => patternBlk (maskBit mask c)) rfl hcfg
  simp only [blockBytes_patternBlk] at hlog
  exact ⟨t, ht, hlog, hrest⟩

/-- Settles O33: SETONMASK writes ON_BLK to the channels whose mask bit is 1, in order. -/
theorem setonmaskCompletes : Obligations.SetonmaskCompletes :=
  fun mask _ hcfg => exec_channels_completes (cs := maskChannels mask) (block := fun _ => onBlk) rfl hcfg

/-- Settles O34: SETOFFMASK writes OFF_BLK to the channels whose mask bit is 1, in order. -/
theorem setoffmaskCompletes : Obligations.SetoffmaskCompletes :=
  fun mask _ hcfg => exec_channels_completes (cs := maskChannels mask) (block := fun _ => offBlk) rfl hcfg

/-! ### Transaction counts -/

theorem allChannels_map_toNat : allChannels.map BitVec.toNat = List.range 16 := by decide

/-- A mask names as many channels as it has set bits. -/
theorem maskChannels_length (mask : BitVec 16) :
    (maskChannels mask).length = (List.range 16).countP (fun i => mask.getLsbD i) := by
  rw [← allChannels_map_toNat, List.countP_map]
  exact List.countP_eq_length_filter.symm

theorem exists_led_of_mem_map {cs : List Chan} {bytes : Chan → List Byte} {e : Event}
    (he : e ∈ cs.map fun c => Event.W (led c) (bytes c)) : ∃ (c : Chan) (bs : List Byte), e = .W (led c) bs := by
  obtain ⟨c, -, rfl⟩ := List.mem_map.1 he
  exact ⟨c, bytes c, rfl⟩

/-- Settles O45: the events are those of each command's next state; a mask command's are one per set bit. -/
theorem switchTransactionCounts : Obligations.SwitchTransactionCounts := by
  intro mask s hcfg
  obtain ⟨t1, h1, hlog1, -⟩ := allonCompletes s hcfg
  obtain ⟨t2, h2, hlog2, -⟩ := alloffCompletes s hcfg
  obtain ⟨t3, h3, hlog3, -⟩ := setbitsCompletes mask s hcfg
  obtain ⟨t4, h4, hlog4, -⟩ := setonmaskCompletes mask s hcfg
  obtain ⟨t5, h5, hlog5, -⟩ := setoffmaskCompletes mask s hcfg
  refine ⟨t1, t2, t3, t4, t5, _, _, _, _, _, h1, h2, h3, h4, h5, hlog1, hlog2, hlog3, hlog4, hlog5, rfl, rfl,
    List.length_map _, (List.length_map _).trans (maskChannels_length mask),
    (List.length_map _).trans (maskChannels_length mask), fun e he => ?_, fun e he => ?_⟩
  · obtain rfl | rfl : e = _ ∨ e = _ := by simpa using he
    · exact ⟨_, rfl⟩
    · exact ⟨_, rfl⟩
  · simp only [List.mem_append] at he
    obtain (he | he) | he := he
    · exact exists_led_of_mem_map he
    · exact exists_led_of_mem_map he
    · exact exists_led_of_mem_map he

end Sys2Proof.Machine
end

section
/-! The family 42_brightness.md: the two encoders, SETBR, SETBRALL, SETBRS and SETRGB. First the encoders in numbers, then the windows and groups, then what each command writes, then SETBRS and SETRGB as the SETBR commands they stand for. -/

namespace Sys2Proof.Machine

/-! ### The encoder in numbers -/

theorem enc_onH_toNat (b : Byte) (c : Chan) : (enc b c).onH.toNat = c.toNat :=
  BitVec.toNat_setWidth_of_le (by decide)

/-- The low half of the brightness, as the high half of OFF_L (42_brightness.md R150). -/
theorem shiftLeft_four_toNat (b : Byte) : (b <<< 4).toNat = b.toNat % 16 * 16 := by
  rw [BitVec.toNat_shiftLeft, Nat.shiftLeft_eq]
  omega

theorem ushiftRight_four_toNat (b : Byte) : (b >>> 4).toNat = b.toNat / 16 := by
  rw [BitVec.toNat_ushiftRight, Nat.shiftRight_eq_div_pow]

theorem enc_offL_toNat (b : Byte) (c : Chan) : (enc b c).offL.toNat = b.toNat % 16 * 16 :=
  shiftLeft_four_toNat b

theorem enc_offH_toNat (b : Byte) (c : Chan) : (enc b c).offH.toNat = (c.toNat + b.toNat / 16) % 16 := by
  have hmask (n : Nat) : n &&& 0x0F = n % 16 := Nat.and_two_pow_sub_one_eq_mod n 4
  have hc := c.isLt
  have hb := b.isLt
  rw [enc, BitVec.toNat_and, BitVec.toNat_add, BitVec.toNat_setWidth_of_le (by decide), ushiftRight_four_toNat,
    BitVec.toNat_ofNat, hmask]
  omega

theorem lowNibble_toNat (x : Byte) : (x.extractLsb' 0 4).toNat = x.toNat % 16 := rfl

/-- The on-time of channel c is 256*c, whatever its brightness (42_brightness.md R151). -/
theorem on12_enc (b : Byte) (c : Chan) : on12 (enc b c) = 256 * c.toNat := by
  have hc := c.isLt
  have honL : (enc b c).onL.toNat = 0 := rfl
  rw [on12, lowNibble_toNat, enc_onH_toNat, honL]
  omega

/-- The off-time is 16*b after the on-time, modulo the cycle (42_brightness.md R151). -/
theorem off12_enc (b : Byte) (c : Chan) : off12 (enc b c) = (256 * c.toNat + 16 * b.toNat) % 4096 := by
  rw [off12, lowNibble_toNat, enc_offH_toNat, enc_offL_toNat]
  omega

theorem duty_enc (b : Byte) (c : Chan) : duty (enc b c) = 16 * b.toNat := by
  have hb := b.isLt
  have hc := c.isLt
  rw [duty, on12_enc, off12_enc]
  omega

/-- EncAll's off-time never wraps (42_brightness.md R152). -/
theorem off12_encAll (b : Byte) : off12 (encAll b) = 16 * b.toNat := by
  have hb := b.isLt
  have hc : (0#4).toNat = 0 := rfl
  rw [encAll_eq_enc, off12_enc, hc]
  omega

theorem encAll_offH_toNat (b : Byte) : (encAll b).offH.toNat = b.toNat / 16 := by
  have hb := b.isLt
  have hc : (0#4).toNat = 0 := rfl
  rw [encAll_eq_enc, enc_offH_toNat, hc]
  omega

/-! ### SETBR and SETBRALL -/

/-- Settles O35: SETBR is one write of Enc(br, ch) to its channel. -/
theorem setbrCompletes : Obligations.SetbrCompletes :=
  fun br ch _ hcfg => exec_channels_completes (cs := [ch]) (block := enc br) rfl hcfg

/-- Settles O36: SETBRALL is one write of EncAll(br) to ALL_LED. -/
theorem setbrallCompletes : Obligations.SetbrallCompletes :=
  fun br _ hcfg => exec_allLed_completes (b := encAll br) rfl hcfg

/-- Settles O25: the bytes written are the encoders', whose values are the numbers the rules give. -/
theorem encoderBytes : Obligations.EncoderBytes := by
  refine ⟨fun b c s hcfg => ?_, fun b s hcfg => ?_, fun b => ⟨encAll_eq_enc b, ?_, off12_encAll b, ?_⟩⟩
  · obtain ⟨t, ht, hlog, -⟩ := setbrCompletes b c s hcfg
    exact ⟨t, _, _, _, _, ht, hlog, rfl, rfl, enc_onH_toNat b c, enc_offL_toNat b c, enc_offH_toNat b c⟩
  · obtain ⟨t, ht, hlog, -⟩ := setbrallCompletes b s hcfg
    exact ⟨t, _, _, _, _, ht, hlog, rfl, rfl, rfl, shiftLeft_four_toNat b, encAll_offH_toNat b⟩
  · rw [encAll_eq_enc, on12_enc]
    rfl
  · rw [encAll_eq_enc, duty_enc]

/-- Settles O26: SETBR writes Enc(b, c), whose times are known; 256*c + 16*b is 256*(c + b/16) and less than 256 more. -/
theorem encoderDuty : Obligations.EncoderDuty := by
  intro b c s hcfg
  obtain ⟨t, ht, hlog, -⟩ := setbrCompletes b c s hcfg
  refine ⟨t, enc b c, ht, hlog, rfl, on12_enc b c, off12_enc b c, duty_enc b c, ?_⟩
  rw [ushiftRight_four_toNat]
  omega

/-! ### The full flags -/

/-- A byte up to 0x0F has bit 4 and bits 7:5 clear. -/
theorem highBits_of_le {x : Byte} (hx : x.toNat ≤ 0x0F) : x.getLsbD 4 = false ∧ x.extractLsb' 5 3 = 0#3 := by
  constructor
  · exact Nat.testBit_lt_two_pow (show x.toNat < 2 ^ 4 by omega)
  · apply BitVec.eq_of_toNat_eq
    rw [BitVec.extractLsb'_toNat, Nat.shiftRight_eq_div_pow, show x.toNat / 2 ^ 5 = 0 by omega]
    rfl

theorem enc_onH_le (b : Byte) (c : Chan) : (enc b c).onH.toNat ≤ 0x0F := by
  rw [enc_onH_toNat]
  exact Nat.le_of_lt_succ c.isLt

theorem enc_offH_le (b : Byte) (c : Chan) : (enc b c).offH.toNat ≤ 0x0F := by
  rw [enc_offH_toNat]
  omega

theorem enc_offL_lowNibble (b : Byte) (c : Chan) : (enc b c).offL.extractLsb' 0 4 = 0#4 := by
  apply BitVec.eq_of_toNat_eq
  rw [lowNibble_toNat, enc_offL_toNat, Nat.mul_mod_left]
  rfl

/-- A legal 4-byte write does not have both full flags set (10_state.md R31). -/
theorem not_bothFull_of_eventLegal {a : RegAddr} {b0 b1 b2 b3 : Byte} (h : eventLegal (.W a [b0, b1, b2, b3]) = true) :
    ¬ (b1.getLsbD 4 = true ∧ b3.getLsbD 4 = true) := by
  simp only [eventLegal, blockLegal, fullOn, fullOff, Bool.and_eq_true] at h
  obtain ⟨-, ⟨hflags, -⟩, -⟩ := h
  rintro ⟨hon, hoff⟩
  rw [hon, hoff] at hflags
  cases hflags

/-- Settles O27: an encoded block's high bytes are at most 0x0F; whatever a command logs is a legal transaction. -/
theorem noBothFullFlags : Obligations.NoBothFullFlags := by
  constructor
  · intro b c blk hblk
    obtain ⟨d, rfl⟩ : ∃ d, blk = enc b d := by
      obtain rfl | rfl := hblk
      · exact ⟨c, rfl⟩
      · exact ⟨0#4, encAll_eq_enc b⟩
    obtain ⟨hon, honHigh⟩ := highBits_of_le (enc_onH_le b d)
    obtain ⟨hoff, hoffHigh⟩ := highBits_of_le (enc_offH_le b d)
    exact ⟨rfl, enc_onH_le b d, enc_offH_le b d, hon, hoff, honHigh, hoffHigh, enc_offL_lowNibble b d⟩
  · intro i s t new a b0 b1 b2 b3 h hlog hmem
    obtain ⟨logged, hlogged⟩ := (exec_next h).transacts
    obtain rfl : new = logged := List.append_cancel_left (hlog.symm.trans hlogged.log_eq)
    exact not_bothFull_of_eventLegal (hlogged.legal _ hmem)

/-! ### SETBRS: the value and the channels of its window -/

theorem exec_setbrs_of_legal (first : Chan) {count : BitVec 5} (p : Payload) (s : State) (h1 : 1 ≤ count.toNat)
    (h16 : count.toNat ≤ 16) :
    exec (.setbrs first count p) s = s.runCommand (setbrsOps s.params first count p) 5 :=
  if_pos (by simp [countLegal, h1, h16])

/-- Under BR_INDEX = relative channel i takes `BRV[(i - FIRST) mod 16]` (42_brightness.md R155). -/
theorem windowValue_relative (first : Chan) (p : Payload) (c : Chan) :
    windowValue .relative first p c = brv p (BitVec.ofNat 4 ((c.toNat + 16 - first.toNat) % 16)) := by
  have hsub : c - first = BitVec.ofNat 4 ((c.toNat + 16 - first.toNat) % 16) := by bv_omega
  rw [windowValue, hsub]

/-- Settles O37: SETBRS with a legal COUNT is one channel write for each channel of its window. -/
theorem setbrsCompletes : Obligations.SetbrsCompletes := by
  intro first count p s hcfg h1 h16
  obtain ⟨t, ht, hlog, hcp, hframe, hdev⟩ :=
    exec_channels_completes (exec_setbrs_of_legal first p s h1 h16) hcfg
  refine ⟨t, ht, hlog, hcp, hframe, hdev, fun hmode c => ?_, fun hmode c => ?_⟩
  · rw [hmode, windowValue]
  · rw [hmode, windowValue_relative]

/-- The faithful window as channel numbers: FIRST to FIRST + COUNT - 2, or none when it wraps (42_brightness.md R156). -/
theorem windowFaithful_map_toNat (first : Chan) {count : BitVec 5} (h1 : 1 ≤ count.toNat) (h16 : count.toNat ≤ 16) :
    (windowFaithful first count).map BitVec.toNat =
      if first.toNat + count.toNat ≤ 16 then (List.range (count.toNat - 1)).map (fun k => first.toNat + k) else [] := by
  have hfirst := first.isLt
  rw [windowFaithful, List.range'_eq_map_range, List.map_map, List.map_map]
  split
  · rw [show (first.toNat + count.toNat - 1) % 16 - first.toNat = count.toNat - 1 by omega]
    refine List.map_congr_left fun k hk => ?_
    have hlt : first.toNat + k < 16 := by
      rw [List.mem_range] at hk
      omega
    exact Nat.mod_eq_of_lt hlt
  · rw [show (first.toNat + count.toNat - 1) % 16 - first.toNat = 0 by omega]
    rfl

theorem windowFaithful_le (first : Chan) {count : BitVec 5} (h1 : 1 ≤ count.toNat) (h16 : count.toNat ≤ 16) :
    ∀ c ∈ windowFaithful first count, c.toNat ≤ 14 := by
  intro c hc
  have hmem := List.mem_map_of_mem (f := BitVec.toNat) hc
  rw [windowFaithful_map_toNat first h1 h16] at hmem
  split at hmem
  · obtain ⟨k, hk, hck⟩ : ∃ k ∈ List.range (count.toNat - 1), first.toNat + k = c.toNat := List.mem_map.1 hmem
    rw [List.mem_range] at hk
    omega
  · cases hmem

/-- Settles O41: the window's channels as numbers, none above 14. -/
theorem faithfulWindow : Obligations.FaithfulWindow := by
  intro first count p s hcfg hmode h1 h16
  obtain ⟨t, ht, hlog, -⟩ := setbrsCompletes first count p s hcfg h1 h16
  rw [hmode] at hlog
  exact ⟨t, windowFaithful first count, ht, hlog, windowFaithful_map_toNat first h1 h16,
    windowFaithful_le first h1 h16⟩

/-- The corrected window's k-th channel is FIRST + k, in 4 bits (42_brightness.md R157). -/
theorem windowCorrected_eq (first : Chan) (count : BitVec 5) :
    windowCorrected first count = (List.range count.toNat).map (fun k => first + BitVec.ofNat 4 k) := by
  refine List.map_congr_left fun k _ => ?_
  bv_omega

theorem add_ofNat_toNat (first : Chan) (k : Nat) : (first + BitVec.ofNat 4 k).toNat = (first.toNat + k) % 16 := by
  bv_omega

theorem windowCorrected_map_toNat (first : Chan) (count : BitVec 5) :
    (windowCorrected first count).map BitVec.toNat = (List.range count.toNat).map (fun k => (first.toNat + k) % 16) := by
  rw [windowCorrected_eq, List.map_map]
  exact List.map_congr_left fun k _ => add_ofNat_toNat first k

/-- No channel comes twice: k below 16 is the distance from FIRST. -/
theorem windowCorrected_nodup (first : Chan) {count : BitVec 5} (h16 : count.toNat ≤ 16) :
    (windowCorrected first count).Nodup := by
  rw [windowCorrected_eq]
  refine List.nodup_range.map_on fun j hj k hk hjk => ?_
  rw [List.mem_range] at hj hk
  have hmod := congrArg BitVec.toNat ((BitVec.add_right_inj first).1 hjk)
  simp only [BitVec.toNat_ofNat] at hmod
  omega

/-- With COUNT = 16 every channel c is in the window, at distance c - FIRST. -/
theorem mem_windowCorrected (first : Chan) {count : BitVec 5} (h : count.toNat = 16) (c : Chan) :
    c ∈ windowCorrected first count := by
  rw [windowCorrected_eq, h]
  refine List.mem_map.2 ⟨(c - first).toNat, List.mem_range.2 (c - first).isLt, ?_⟩
  rw [BitVec.ofNat_toNat, BitVec.setWidth_eq, BitVec.add_comm, BitVec.sub_add_cancel]

/-- Under BR_INDEX = relative the k-th channel takes `BRV[k]`. -/
theorem windowCorrected_map_value (first : Chan) (count : BitVec 5) (p : Payload) :
    (windowCorrected first count).map (windowValue .relative first p) =
      (List.range count.toNat).map (fun k => brv p (BitVec.ofNat 4 k)) := by
  rw [windowCorrected_eq, List.map_map]
  refine List.map_congr_left fun k _ => ?_
  change brv p (first + BitVec.ofNat 4 k - first) = _
  rw [BitVec.add_comm, BitVec.add_sub_cancel]

/-- Settles O42: the window's channels FIRST + k, each once, and their values. -/
theorem correctedWindow : Obligations.CorrectedWindow := by
  intro first count p s hcfg hmode h1 h16
  obtain ⟨t, ht, hlog, -⟩ := setbrsCompletes first count p s hcfg h1 h16
  rw [hmode] at hlog
  refine ⟨t, windowCorrected first count, ht, hlog, windowCorrected_map_toNat first count,
    windowCorrected_nodup first h16, fun h => mem_windowCorrected first h, fun hindex => ?_⟩
  rw [hindex]
  exact windowCorrected_map_value first count p

/-! ### SETRGB: the channels of its group -/

theorem exec_setrgb_of_legal (v0 v1 v2 : Byte) {group : BitVec 3} (s : State) (h : group.toNat ≤ 4) :
    exec (.setrgb v0 v1 v2 group) s = s.runCommand (setrgbOps v0 v1 v2 group) 1 :=
  if_pos (decide_eq_true h)

/-- A legal group's channels are 3*GROUP + k, none above 14 (42_brightness.md R158). -/
theorem rgbChannel_toNat {group : BitVec 3} (h : group.toNat ≤ 4) {k : Nat} (hk : k < 3) :
    (rgbChannel group k).toNat = 3 * group.toNat + k := by
  rw [rgbChannel, BitVec.toNat_ofNat]
  omega

theorem rgbChannel_inj {group : BitVec 3} (h : group.toNat ≤ 4) {j k : Nat} (hj : j < 3) (hk : k < 3) :
    rgbChannel group j = rgbChannel group k ↔ j = k := by
  rw [← BitVec.toNat_inj, rgbChannel_toNat h hj, rgbChannel_toNat h hk]
  omega

/-- The block SETRGB gives each channel of its group (42_brightness.md R158). -/
def rgbBlock (v0 v1 v2 : Byte) (group : BitVec 3) (c : Chan) : ChannelBlock :=
  if c = rgbChannel group 0 then enc v0 c else if c = rgbChannel group 1 then enc v1 c else enc v2 c

/-- SETRGB's group, in order. -/
def rgbChannels (group : BitVec 3) : List Chan := [rgbChannel group 0, rgbChannel group 1, rgbChannel group 2]

/-- Three different channels, so each has its own value's block: mapping over the group picks them in order. -/
theorem map_rgbChannels {α : Type} (f : Chan → ChannelBlock → α) (v0 v1 v2 : Byte) {group : BitVec 3}
    (h : group.toNat ≤ 4) :
    (rgbChannels group).map (fun c => f c (rgbBlock v0 v1 v2 group c)) =
      [f (rgbChannel group 0) (enc v0 (rgbChannel group 0)), f (rgbChannel group 1) (enc v1 (rgbChannel group 1)),
        f (rgbChannel group 2) (enc v2 (rgbChannel group 2))] := by
  simp [rgbChannels, rgbBlock, rgbChannel_inj h]

/-- Settles O38: SETRGB with a legal GROUP is one channel write for each of its three channels. -/
theorem setrgbCompletes : Obligations.SetrgbCompletes := by
  intro v0 v1 v2 group s hcfg h
  have hops : exec (.setrgb v0 v1 v2 group) s =
      s.runCommand ((rgbChannels group).map fun c => channelWrite c (rgbBlock v0 v1 v2 group c)) 1 := by
    rw [exec_setrgb_of_legal v0 v1 v2 s h, map_rgbChannels channelWrite v0 v1 v2 h, setrgbOps]
  obtain ⟨t, ht, hlog, hrest⟩ := exec_channels_completes hops hcfg
  rw [map_rgbChannels (fun c b => Event.W (led c) (blockBytes b)) v0 v1 v2 h] at hlog
  have hc0 := rgbChannel_toNat h (show 0 < 3 by decide)
  have hc1 := rgbChannel_toNat h (show 1 < 3 by decide)
  have hc2 := rgbChannel_toNat h (show 2 < 3 by decide)
  exact ⟨rgbChannel group 0, rgbChannel group 1, rgbChannel group 2, t, hc0, hc1, hc2, by omega, ht, hlog, hrest⟩

/-! ### A list of SETBR commands -/

/-- The transactions of the SETBR commands of a list, in order (42_brightness.md R153). -/
def setbrOps (writes : List (Byte × Chan)) : List MicroOp := writes.map fun w => channelWrite w.2 (enc w.1 w.2)

theorem exec_setbr_of_cfg {s : State} (hcfg : s.cfg = true) (b : Byte) (c : Chan) :
    exec (.setbr b c) s = .next ((s.runSeq [channelWrite c (enc b c)]).complete 1) :=
  if_pos hcfg

/-- A completion between channel writes can be put off to the end: no write depends on cp or on the latch. -/
theorem State.runSeq_complete_setbrOps (writes : List (Byte × Chan)) (s : State) (m n : Nat) :
    ((s.complete m).runSeq (setbrOps writes)).complete n = (s.runSeq (setbrOps writes)).complete (m + n) := by
  rw [State.runSeq_eq, State.runSeq_eq]
  induction writes generalizing s with
  | nil => simp [setbrOps, State.complete, Nat.add_assoc]
  | cons w rest ih => exact ih (s.issue (channelWrite w.2 (enc w.1 w.2)))

theorem State.runSeq_cons (s : State) (op : MicroOp) (ops : List MicroOp) :
    s.runSeq (op :: ops) = (s.runSeq [op]).runSeq ops := by
  rw [State.runSeq_eq s [op], State.runSeq_eq s (op :: ops)]
  exact ((s.issue op).runSeq_eq ops).symm

/-- SETBR commands issued one after another write as one run of their transactions does, and leave cp one further each. -/
theorem runSetbr_eq (writes : List (Byte × Chan)) {s : State} (hcfg : s.cfg = true) (hseq : s.seq = [])
    (hlatch : s.latch = 0x00#8) :
    runSetbr writes s = .next ((s.runSeq (setbrOps writes)).complete writes.length) := by
  induction writes generalizing s with
  | nil =>
    have hidle : (s.runSeq []).complete 0 = s := by
      cases s
      cases hseq
      cases hlatch
      rfl
    exact congrArg Host.Outcome.next hidle.symm
  | cons w rest ih =>
    rw [runSetbr, exec_setbr_of_cfg hcfg]
    dsimp only
    rw [ih (by simpa using hcfg) rfl rfl, State.runSeq_complete_setbrOps, ← State.runSeq_cons, Nat.add_comm 1]
    rfl

/-- A command that issues the transactions of a list of SETBR commands leaves what they leave, the devices' contents too, and its own cp. -/
theorem exec_eq_runSetbr {i : Instr} {s : State} {writes : List (Byte × Chan)} {len : Nat}
    (hi : exec i s = s.runCommand (setbrOps writes) len) (hcfg : s.cfg = true) (hseq : s.seq = [])
    (hlatch : s.latch = 0x00#8) : ∃ t u : State, exec i s = .next t ∧ runSetbr writes s = .next u ∧
      t = { u with cp := s.cp + len, dev := t.dev, others := t.others } ∧ t.dev = u.dev ∧ t.others = u.others := by
  refine ⟨(s.runSeq (setbrOps writes)).complete len, _, ?_, runSetbr_eq writes hcfg hseq hlatch, ?_, rfl, rfl⟩
  · rw [hi, State.runCommand, if_pos hcfg]
  · have hcp : (s.runSeq (setbrOps writes)).cp = s.cp := by simp
    rw [← hcp]
    rfl

/-- Settles O43: SETBRS's transactions are those of the SETBR commands of its window. -/
theorem setbrsIsSetbrSequence : Obligations.SetbrsIsSetbrSequence := by
  intro first count p s hcfg h1 h16 hseq hlatch
  have hops : setbrsOps s.params first count p = setbrOps ((windowChannels s.params.windowMode first count).map
      fun c => (windowValue s.params.brIndex first p c, c)) := by
    rw [setbrOps, List.map_map]
    rfl
  obtain ⟨t, u, ht, hu, hblock, hdev⟩ :=
    exec_eq_runSetbr (hops ▸ exec_setbrs_of_legal first p s h1 h16) hcfg hseq hlatch
  exact ⟨t, u, ht, hu, hblock, fun _ => hdev⟩

/-- Settles O44: SETRGB's transactions are those of three SETBR commands. -/
theorem setrgbIsThreeSetbr : Obligations.SetrgbIsThreeSetbr := by
  intro v0 v1 v2 group s hcfg h hseq hlatch
  have hops : setrgbOps v0 v1 v2 group =
      setbrOps [(v0, rgbChannel group 0), (v1, rgbChannel group 1), (v2, rgbChannel group 2)] := rfl
  obtain ⟨t, u, ht, hu, hblock, hdev⟩ :=
    exec_eq_runSetbr (hops ▸ exec_setrgb_of_legal v0 v1 v2 s h) hcfg hseq hlatch
  exact ⟨t, u, ht, hu, hblock, fun _ => hdev⟩

end Sys2Proof.Machine
end

section
/-! The family 60_exceptions.md: what a faulted block does, which check gives which fault, what a fault entry changes, the other devices on the bus. -/

namespace Sys2Proof.Machine

open Sys2Proof.Laws

/-! ### The faulted block -/

theorem step_of_faulted {s : State} (hf : s.flt = true) : step s = .fault (.blockFaulted s.fcode) := by
  rw [step, if_pos hf]

theorem State.hostIssue_of_faulted {s : State} (hf : s.flt = true) (ws : List Word32) : s.hostIssue ws = s := by
  simp [State.hostIssue, State.mayIssue, hf]

/-- Settles O13: FLT is checked before any command, and the host may not issue while it is 1. -/
theorem onlyResetClearsFault : Obligations.OnlyResetClearsFault := by
  intro s hf
  refine ⟨step_of_faulted hf, fun ws => ?_, rfl, rfl⟩
  rw [State.hostIssue_of_faulted hf, step_of_faulted hf]

/-! ### The checks of a decoded command -/

/-- A command with an illegal operand faults before CFG is looked at (60_exceptions.md R182). -/
theorem exec_of_not_wellFormed {i : Instr} (hw : i.wellFormed = false) (s : State) :
    exec i s = .next (s.raiseFault .illegalOperand) := by
  have hi : ∀ drv addr, i ≠ .init drv addr := by
    rintro drv addr rfl
    cases hw
  rw [exec_eq_of_ne_init hi, hw]
  rfl

theorem exec_of_not_initialized {i : Instr} (hw : i.wellFormed = true) (hi : ∀ drv addr, i ≠ .init drv addr)
    {s : State} (hc : s.cfg = false) : exec i s = .next (s.raiseFault .notInitialized) := by
  rw [exec_eq_of_ne_init hi, if_pos hw, runCommand_notInitialized hc]

/-- A command that passes the checks of its operands and of CFG completes, and FLT stays as it was. -/
theorem exec_of_checks_passed {i : Instr} (hw : i.wellFormed = true) {s : State}
    (hc : ¬ ((∀ drv addr, i ≠ .init drv addr) ∧ s.cfg = false)) : ∃ t, exec i s = .next t ∧ t.flt = s.flt := by
  have ho := exec_outcome i s
  generalize exec i s = o at ho ⊢
  cases ho with
  | init drv addr h => exact ⟨_, rfl, by simp⟩
  | illegalOperand h => simp [hw] at h
  | notInitialized h hi hcfg => exact absurd ⟨hi, hcfg⟩ hc
  | completes h hi hcfg => exact ⟨_, rfl, by simp⟩

/-- Settles O39: legal operands pass check (4), and CFG is looked at next. -/
theorem notInitializedFaults : Obligations.NotInitializedFaults := fun _ _ hc hw hi =>
  exec_of_not_initialized hw hi hc

/-! ### The checks of the header, as its bits show them -/

/-- The opcodes that name no command (30_encoding.md R92). -/
theorem fieldsOf_eq_none_iff {h : Word32} {rest : List Word32} :
    fieldsOf h rest = none ↔ opField h = 0x0#4 ∨ 0xC ≤ (opField h).toNat := by
  have hlt := (opField h).isLt
  rw [← BitVec.toNat_inj, BitVec.toNat_ofNat]
  unfold fieldsOf
  split
  case h_12 =>
    simp only [imp_false, true_iff] at *
    omega
  all_goals simp [*]

theorem decode_illegalOpcode {h : Word32} {rest : List Word32} (hop : opField h = 0x0#4 ∨ 0xC ≤ (opField h).toNat) :
    decode (h :: rest) = .error .illegalOpcode := by
  rw [decode, fieldsOf_eq_none_iff.2 hop]

/-- A header whose OP is not SETBRS's is its whole command; SETBRS has four words more (30_encoding.md R93). -/
theorem length_lt_opWords_iff {op : BitVec 4} {n : Nat} : n + 1 < opWords op ↔ op = 0xA#4 ∧ n < 4 := by
  by_cases hop : op = 0xA#4
  · simp only [opWords, hop, if_true, true_and]
    omega
  · simp [opWords, hop]

theorem decode_reservedField {h : Word32} {rest : List Word32} {i : Instr} (hi : fieldsOf h rest = some i)
    (hlen : ¬ rest.length + 1 < opWords (opField h)) (hres : h &&& reservedBits (opField h) ≠ 0#32) :
    decode (h :: rest) = .error .reservedField := by
  simp only [decode, hi, if_neg hlen, if_pos hres]

theorem wellFormed_setbrs_eq_false_iff {first : Chan} {count : BitVec 5} {p : Payload} :
    (Instr.setbrs first count p).wellFormed = false ↔ count = 0#5 ∨ 17 ≤ count.toNat := by
  simp only [Instr.wellFormed, Bool.and_eq_false_iff, decide_eq_false_iff_not, ← BitVec.toNat_inj, BitVec.toNat_ofNat]
  omega

theorem wellFormed_setrgb_eq_false_iff {v0 v1 v2 : Byte} {group : BitVec 3} :
    (Instr.setrgb v0 v1 v2 group).wellFormed = false ↔ 5 ≤ group.toNat := by
  simp only [Instr.wellFormed, decide_eq_false_iff_not]
  omega

/-- The operands of a command are illegal exactly when COUNT or GROUP in its header is (30_encoding.md R89, R90). -/
theorem wellFormed_eq_false_iff_of_fieldsOf {h : Word32} {rest : List Word32} {i : Instr} (hi : fieldsOf h rest = some i) :
    i.wellFormed = false ↔
      (opField h = 0xA#4 ∧ (h.extractLsb' 8 5 = 0#5 ∨ 17 ≤ (h.extractLsb' 8 5).toNat)) ∨
        (opField h = 0xB#4 ∧ 5 ≤ (h.extractLsb' 4 3).toNat) := by
  have hop := opField_of_fieldsOf hi
  cases i with
  | setbrs first count payload =>
    simp only [HeaderShape.opcode] at hop
    obtain ⟨-, rfl, -⟩ : first = _ ∧ count = _ ∧ _ := by simpa [fieldsOf, hop, eq_comm] using hi
    rw [wellFormed_setbrs_eq_false_iff]
    simp [hop]
  | setrgb v0 v1 v2 group =>
    simp only [HeaderShape.opcode] at hop
    obtain ⟨-, -, -, rfl⟩ : v0 = _ ∧ v1 = _ ∧ v2 = _ ∧ group = _ := by simpa [fieldsOf, hop, eq_comm] using hi
    rw [wellFormed_setrgb_eq_false_iff]
    simp [hop]
  | _ => simp [Instr.wellFormed, hop, HeaderShape.opcode]

/-- INIT is the command of OP 0x1 (30_encoding.md R92). -/
theorem forall_ne_init_iff {h : Word32} {rest : List Word32} {i : Instr} (hi : fieldsOf h rest = some i) :
    (∀ drv addr, i ≠ .init drv addr) ↔ opField h ≠ 0x1#4 := by
  rw [opField_of_fieldsOf hi]
  cases i <;> simp [HeaderShape.opcode]

/-- Settles O11: the decoder makes checks (1) to (3) in order, exec checks (4) and (5); each failing check is turned into what the header shows. -/
theorem faultPriority : Obligations.FaultPriority := by
  intro s h rest hf hw
  split_ifs with hop hlen hres hopd hcfg
  · exact step_of_decode_error hf hw (decode_illegalOpcode hop)
  · exact step_of_decode_error hf hw (decode_truncated hlen.1 hlen.2)
  all_goals
    obtain ⟨i, hi⟩ := Option.ne_none_iff_exists'.1 (mt fieldsOf_eq_none_iff.1 hop)
    rw [← length_lt_opWords_iff] at hlen
  · exact step_of_decode_error hf hw (decode_reservedField hi hlen hres)
  all_goals
    have hd := decode_cons_ok_iff.2 ⟨hi, not_lt.1 hlen, not_not.1 hres⟩
    rw [← wellFormed_eq_false_iff_of_fieldsOf hi] at hopd
    rw [step_of_decode_ok hf hw hd]
  · exact exec_of_not_wellFormed hopd s
  all_goals
    rw [Bool.not_eq_false] at hopd
    rw [← forall_ne_init_iff hi] at hcfg
  · exact exec_of_not_initialized hopd hcfg.1 hcfg.2
  · obtain ⟨t, ht, hflt⟩ := exec_of_checks_passed hopd hcfg
    exact ⟨i, t, hd, rfl, ht, hflt.trans hf⟩

/-! ### Fault entry -/

/-- A command enters a fault, or leaves FLT as it was. -/
theorem ExecOutcome.raiseFault_or_flt {i : Instr} {s t : State} (he : ExecOutcome i s (.next t)) :
    (∃ c, t = s.raiseFault c) ∨ t.flt = s.flt := by
  cases he with
  | init drv addr h => exact .inr (by simp)
  | illegalOperand h => exact .inl ⟨_, rfl⟩
  | notInitialized h hi hc => exact .inl ⟨_, rfl⟩
  | completes h hi hc => exact .inr (by simp)

/-- A step after which FLT is 1 is a fault entry. -/
theorem step_raiseFault {s t : State} (h : step s = .next t) (ht : t.flt = true) : ∃ c, t = s.raiseFault c := by
  obtain ⟨hf, ⟨-, rfl⟩ | ⟨-, c, -, rfl⟩ | ⟨-, i, -, he⟩⟩ := step_next h
  · simp [hf] at ht
  · exact ⟨c, rfl⟩
  · exact he.raiseFault_or_flt.resolve_right (by simp [hf, ht])

/-- Settles O12: the step is a fault entry, STATUS shows FLT, and a faulted block stops. -/
theorem faultEntryIsPrecise : Obligations.FaultEntryIsPrecise := by
  intro s t _ h ht
  obtain ⟨-, -, hstatus, -⟩ := statusLayout t
  exact ⟨step_raiseFault h ht, hstatus.trans ht, step_of_faulted ht⟩

/-! ### The other devices on the bus -/

/-- From `s` to `t` the same other devices are on the bus, and under the oracle `sim` with the same registers. -/
def OthersKept (s t : State) : Prop :=
  t.others.map BusDevice.addr = s.others.map BusDevice.addr ∧ (s.params.oracle = .sim → t.others = s.others)

theorem othersKept_of_eq {s t : State} (h : t.others = s.others) : OthersKept s t :=
  ⟨congrArg _ h, fun _ => h⟩

theorem State.runSeq_othersKept (s : State) (ops : List MicroOp) : OthersKept s (s.runSeq ops) := by
  rw [State.runSeq_eq]
  exact State.issueAll_others ops s

theorem State.configure_othersKept (s : State) : OthersKept s s.configure :=
  ⟨othersConfirm_addr _ _ _ _ _, fun ho => othersConfirm_sim ho _ _ _ _⟩

/-- A command keeps the other devices, whatever its outcome. -/
theorem ExecOutcome.othersKept {i : Instr} {s t : State} (he : ExecOutcome i s (.next t)) : OthersKept s t := by
  cases he with
  | init drv addr h =>
    obtain ⟨haddr, hsim⟩ := ({ s with addr := some addr } : State).runSeq_othersKept (initOps drv addr)
    obtain ⟨haddr', hsim'⟩ := (({ s with addr := some addr } : State).runSeq (initOps drv addr)).configure_othersKept
    exact ⟨haddr'.trans haddr, fun ho => (hsim' (by simpa using ho)).trans (hsim ho)⟩
  | illegalOperand h => exact othersKept_of_eq rfl
  | notInitialized h hi hc => exact othersKept_of_eq rfl
  | completes h hi hc => exact s.runSeq_othersKept _

/-- Settles O53: a wait and a fault entry reach no device, and a command writes registers of devices that stay on the bus. -/
theorem otherDevicesKept : Obligations.OtherDevicesKept := by
  intro s t h
  obtain ⟨-, ⟨-, rfl⟩ | ⟨-, c, -, rfl⟩ | ⟨-, i, -, he⟩⟩ := step_next h
  · exact othersKept_of_eq rfl
  · exact othersKept_of_eq rfl
  · exact he.othersKept

end Sys2Proof.Machine
end

section
/-! The family 70_reset_and_hazards.md: reset, the host's issue and device power-on, the step of a block that waits. -/

namespace Sys2Proof.Machine

/-! ### Reset and the invariant -/

/-- Reset leaves what a block reset leaves, so a fact about every block reset is one about State.reset too. -/
theorem State.reset_eq_blockReset : State.reset = State.reset.blockReset := rfl

theorem exists_eq_blockReset {s : State} (h : s = State.reset ∨ ∃ u : State, s = u.blockReset) :
    ∃ u : State, s = u.blockReset := by
  obtain rfl | hu := h
  · exact ⟨_, State.reset_eq_blockReset⟩
  · exact hu

/-- Settles O15: a block reset writes these values, and State.reset holds them too. -/
theorem resetValues : Obligations.ResetValues := by
  refine ⟨fun s hs => ?_, fun _ => rfl⟩
  obtain ⟨u, rfl⟩ := exists_eq_blockReset hs
  have hstatus : statusByte false false false 0#4 = 0x00#8 := by decide
  exact ⟨rfl, rfl, rfl, rfl, rfl, rfl, rfl, hstatus⟩

/-- After a block reset the invariant asks something of the devices alone. -/
theorem State.blockReset_inv {s : State} (hdev : Memory.wf s.dev = true)
    (hothers : ∀ d ∈ s.others, Memory.wf d.regs = true) : s.blockReset.Inv where
  registersCanonical := hdev
  othersCanonical := hothers
  noFaultNoCode _ := rfl
  faultHasCode h := by cases h
  beforeInit _ := ⟨rfl, rfl, rfl⟩
  afterInit h := by cases h
  selectedIsAddr := rfl
  transactionsLegal _ he := by cases he
  sequencerIdle := ⟨rfl, rfl⟩
  cpInStream := le_rfl

/-- Settles O18: State.reset is a block reset's state, with the power-on register file and no other device. -/
theorem resetMeetsInvariant : Obligations.ResetMeetsInvariant := by
  unfold Obligations.ResetMeetsInvariant
  rw [State.reset_eq_blockReset]
  exact State.blockReset_inv (Memory.ofFun_wf powerOnByte) fun _ hd => by cases hd

/-! ### The moves from outside and the invariant -/

/-- The host's move adds words at the end of the stream, or is no move. -/
theorem State.hostIssue_cases (s : State) (ws : List Word32) :
    s.hostIssue ws = s ∨ s.hostIssue ws = { s with stream := s.stream ++ ws } := by
  rw [State.hostIssue]
  split
  · exact .inr rfl
  · exact .inl rfl

/-- The host's move keeps the invariant: cp stays inside a stream that only grows. -/
theorem State.Inv.hostIssue {s : State} (hs : s.Inv) (ws : List Word32) : (s.hostIssue ws).Inv := by
  obtain h | h := s.hostIssue_cases ws <;> rw [h]
  · exact hs
  · have hcp : s.cp ≤ (s.stream ++ ws).length := hs.cpInStream.trans (by simp)
    exact { hs with cpInStream := hcp }

/-- Device power-on keeps the invariant: it writes the register file alone, with one in canonical form. -/
theorem State.Inv.devicePowerOn {s : State} (hs : s.Inv) : s.devicePowerOn.Inv :=
  { hs with registersCanonical := Memory.ofFun_wf powerOnByte }

/-- Settles O19: each of the three moves keeps the invariant. -/
theorem outsideMovesKeepInvariant : Obligations.OutsideMovesKeepInvariant := fun _ hs =>
  ⟨hs.hostIssue, State.blockReset_inv hs.registersCanonical hs.othersCanonical, hs.devicePowerOn⟩

/-! ### The block that waits -/

/-- No word is pending exactly when cp has reached the end of the stream. -/
theorem State.pendingWords_eq_nil_iff {s : State} : s.pendingWords = [] ↔ s.stream.length ≤ s.cp :=
  List.drop_eq_nil_iff

/-- Settles O9: no word is pending, so the step has no command to take. -/
theorem idleStepChangesNothing : Obligations.IdleStepChangesNothing := by
  intro s hf hcp
  simp [step, hf, State.pendingWords_eq_nil_iff.2 hcp]

/-! ### When the host may issue -/

/-- Words are one command when no more follow the header than its OP asks for (70_reset_and_hazards.md R222). -/
theorem oneCommand_cons_iff {h : Word32} {rest : List Word32} :
    oneCommand (h :: rest) = true ↔ rest.length ≤ if opField h = 0xA#4 then 4 else 0 := by
  rw [oneCommand, opWords, decide_eq_true_iff]
  split <;> omega

/-- Words that decode to a command and are no more than its own are one command. -/
theorem oneCommand_of_decode {ws : List Word32} {i : Instr} (hd : decode ws = .ok i) (hlen : ws.length = instrWords i) :
    oneCommand ws = true := by
  cases ws with
  | nil => cases hd
  | cons h rest =>
    obtain ⟨hi, -, -⟩ := decode_cons_ok_iff.1 hd
    exact decide_eq_true (hlen.trans (instrWords_of_fieldsOf hi)).le

theorem State.hostIssue_of_pendingWords_ne_nil {s : State} (h : s.pendingWords ≠ []) (ws : List Word32) :
    s.hostIssue ws = s := by
  have hcp := mt State.pendingWords_eq_nil_iff.2 h
  simp [State.hostIssue, State.mayIssue, hcp]

theorem State.hostIssue_of_not_oneCommand {ws : List Word32} (h : oneCommand ws = false) (s : State) :
    s.hostIssue ws = s := by
  simp [State.hostIssue, h]

/-! ### The command issued is the next one run -/

section
variable {s : State} (hf : s.flt = false) (hcp : s.cp = s.stream.length)
include hf hcp

/-- An unfaulted block that has taken every word accepts one command. -/
theorem State.hostIssue_of_oneCommand {ws : List Word32} (hws : oneCommand ws = true) :
    s.hostIssue ws = { s with stream := s.stream ++ ws } := by
  simp [State.hostIssue, State.mayIssue, hf, hcp, hws]

/-- The words issued are then the pending ones, and the block is not faulted. -/
theorem State.hostIssue_pendingWords {ws : List Word32} (hws : oneCommand ws = true) :
    (s.hostIssue ws).flt = false ∧ (s.hostIssue ws).pendingWords = ws := by
  rw [State.hostIssue_of_oneCommand hf hcp hws]
  exact ⟨hf, by simp [State.pendingWords, hcp]⟩

theorem step_hostIssue_of_decode {ws : List Word32} {i : Instr} (hd : decode ws = .ok i)
    (hlen : ws.length = instrWords i) : step (s.hostIssue ws) = exec i (s.hostIssue ws) := by
  obtain ⟨hf', hw⟩ := State.hostIssue_pendingWords hf hcp (oneCommand_of_decode hd hlen)
  cases ws with
  | nil => cases hd
  | cons h rest => exact step_of_decode_ok hf' hw hd

/-- A SETBRS header with fewer than four words after it is accepted, and faults (30_encoding.md R93, log entry 4). -/
theorem step_hostIssue_truncated {h : Word32} {rest : List Word32} (hop : opField h = 0xA#4) (hlen : rest.length < 4) :
    step (s.hostIssue (h :: rest)) = .next ((s.hostIssue (h :: rest)).raiseFault .truncated) := by
  have hone : oneCommand (h :: rest) = true := oneCommand_cons_iff.2 (by simpa [hop] using hlen.le)
  obtain ⟨hf', hw⟩ := State.hostIssue_pendingWords hf hcp hone
  exact step_of_decode_error hf' hw (decode_truncated hop hlen)

end

/-- Settles O52: the words of one command, whole or short, become the pending ones; any other issue is no move; after reset the block has taken every word of its empty stream. -/
theorem issuedCommandIsRun : Obligations.IssuedCommandIsRun := by
  refine ⟨fun s ws i hf hcp hd hlen => ?_, fun s h rest hf hcp hop hlen => ?_, fun s ws h => ?_, fun s ws h => ?_,
    fun s ws i hs hd hlen => ?_⟩
  · exact ⟨State.hostIssue_of_oneCommand hf hcp (oneCommand_of_decode hd hlen), step_hostIssue_of_decode hf hcp hd hlen⟩
  · exact step_hostIssue_truncated hf hcp hop hlen
  · obtain hf | hw := h
    · exact State.hostIssue_of_faulted hf ws
    · exact State.hostIssue_of_pendingWords_ne_nil hw ws
  · refine State.hostIssue_of_not_oneCommand ?_ s
    obtain rfl | ⟨h, rest, rfl, hlong⟩ := h
    · rfl
    · exact Bool.eq_false_iff.2 (mt oneCommand_cons_iff.1 (Nat.not_le.2 hlong))
  · obtain ⟨u, rfl⟩ := exists_eq_blockReset hs
    have hissue := State.hostIssue_of_oneCommand (s := u.blockReset) rfl rfl (oneCommand_of_decode hd hlen)
    exact ⟨rfl, congrArg State.stream hissue, step_hostIssue_of_decode rfl rfl hd hlen⟩

end Sys2Proof.Machine
end

section

/-! # The words of the test vectors -/

namespace Sys2Proof.Machine

/-- A command's own words decode to it. -/
theorem decode_of_encode_eq {i : Instr} {ws : List Word32} (h : encode i = ws) : decode ws = .ok i :=
  decode_eq_ok_iff.2 (h ▸ List.prefix_rfl)

/-- Settles O3: the words written out for each command are the ones it encodes to. -/
theorem specWordsDecode : Obligations.SpecWordsDecode := by
  unfold Obligations.SpecWordsDecode
  and_intros <;> exact decode_of_encode_eq rfl

end Sys2Proof.Machine
end
